-- ==== Sys2Proof/Word.lean ====
section
/-! DEFINITION. The words of base45_codec: a symbol, a command word, a beat word, a digit. -/

namespace Sys2Proof

/-- A symbol: a byte, or the 8-bit code of a character (R6 `BYTE_W`, R7 `CHAR_W`). -/
abbrev Byte := BitVec 8

/-- The register width of a digit value (R7 `VAL_W`). -/
abbrev Val6 := BitVec 6

/-- A command word as it crosses the command port (R7 `CMD_W`, R62). -/
abbrev CmdWord := BitVec 10

/-- An output beat as it crosses the output port (R7 `BEAT_W`, R67). -/
abbrev BeatWord := BitVec 12

/-- A base-45 digit, which is an index into the alphabet and a legal address of `V2C` (R42, R80). -/
abbrev Digit := Fin 45

end Sys2Proof
end

