-- ==== Sys2Proof/Syntax.lean ====
section
/-! DEFINITION. The four commands of the block (R62, R73), one constructor per row of the opcode table. -/

namespace Sys2Proof

/-- The two halves of the sequencer (R18): lane 0 encodes, lane 1 decodes. -/
inductive Lane where
  | enc
  | dec
deriving DecidableEq, Repr

/-- A command. The `reserved` field of the END commands is kept, so that no bit of the word is lost,
and is ignored by the block (R64). -/
inductive Instr where
  /-- `ENCB d`: the next input byte of the encoder message (R110). -/
  | encb (d : Byte)
  /-- `ENCE`: closes the encoder message (R111). -/
  | ence (reserved : Byte)
  /-- `DECC c`: the code of the next input character of the decoder message (R120). -/
  | decc (c : Byte)
  /-- `DECE`: closes the decoder message (R121). -/
  | dece (reserved : Byte)
deriving DecidableEq, Repr

namespace Instr

/-- The lane of a command: `op[1]` (R62). -/
def lane : Instr → Lane
  | encb _ => .enc
  | ence _ => .enc
  | decc _ => .dec
  | dece _ => .dec

/-- Whether a command is an END command: `op[0]` (R62). -/
def isEnd : Instr → Bool
  | encb _ => false
  | ence _ => true
  | decc _ => false
  | dece _ => true

/-- The `data` field (R62, R63). -/
def data : Instr → Byte
  | encb d => d
  | ence r => r
  | decc c => c
  | dece r => r

/-- The mnemonic (R62, R71). -/
def mnemonic : Instr → String
  | encb _ => "ENCB"
  | ence _ => "ENCE"
  | decc _ => "DECC"
  | dece _ => "DECE"

end Instr

end Sys2Proof
end

