-- ==== Sys2Proof/Decode.lean ====
section
/-! DEFINITION. The decoder of command words, the encoder, and the opcode table they come from
(R62 to R66, R73). -/

namespace Sys2Proof

/-! ### Decoding -/

/-- The decoder of a command word: `cmd[9]` is the lane, `cmd[8]` says END or symbol, `cmd[7:0]` is the
operand. It is total: every one of the 1024 words is a command (R62, R65, R73). -/
def decode (w : CmdWord) : Instr :=
  match w.getLsbD 9, w.getLsbD 8 with
  | false, false => .encb (w.extractLsb' 0 8)
  | false, true => .ence (w.extractLsb' 0 8)
  | true, false => .decc (w.extractLsb' 0 8)
  | true, true => .dece (w.extractLsb' 0 8)

/-- Why a number is no command. -/
inductive DecodeRefusal where
  /-- The number has a bit above bit 9; the command port has ten wires (R60, R66; log entry 15). Safe. -/
  | widerThanPort
deriving DecidableEq, Repr

/-- What the decoder answers for bits given as a number. -/
inductive Decoded where
  | command (i : Instr)
  | rejected (r : DecodeRefusal)
deriving DecidableEq, Repr

/-- The decoder on any bits, given as one number with bit 0 least significant: a command word is exactly
10 bits (R66), and a number with any bit beyond them is rejected by name. -/
def decodeNumber (n : Nat) : Decoded :=
  if n < 1024 then .command (decode (BitVec.ofNat 10 n)) else .rejected .widerThanPort

/-- The instruction the decoder reads from the bits `w` of a row of the opcode table. A command is 10
bits in one word, so `w` is that word and its length adds nothing. -/
def decodeTableWord (_nbits w : Nat) : Option Instr :=
  match decodeNumber w with
  | .command i => some i
  | .rejected _ => none

/-! ### Encoding -/

/-- The opcode `op[1:0]` of a command (R62). -/
def Instr.op : Instr → BitVec 2
  | .encb _ => 0b00#2
  | .ence _ => 0b01#2
  | .decc _ => 0b10#2
  | .dece _ => 0b11#2

/-- The command word: opcode in bits 9 and 8, `data` in bits 7 to 0 (R62). -/
def encode (i : Instr) : CmdWord := i.op ++ i.data

/-! ### The opcode table -/

/-- A row of the opcode table: a word is this command when it agrees with `pattern` under `mask` (R73). -/
structure OpRow where
  mnemonic : String
  pattern : CmdWord
  mask : CmdWord
deriving DecidableEq, Repr

/-- The four rows (R62, R73). -/
def opcodeTable : List OpRow :=
  [⟨"ENCB", 0x000, 0x300⟩, ⟨"ENCE", 0x100, 0x300⟩, ⟨"DECC", 0x200, 0x300⟩, ⟨"DECE", 0x300, 0x300⟩]

/-- Whether a word matches a row: `(cmd & mask) = match` (R73). -/
def OpRow.accepts (r : OpRow) (w : CmdWord) : Bool := w &&& r.mask == r.pattern

end Sys2Proof
end

