-- ==== Sys2Proof/Config.lean ====
section
/-! DEFINITION. What is fixed for one instance of the block: the constants of R6, and the values the
spec leaves open (R8, R34, R170, R182) as constants with no body, so that nothing can be proved of one value. -/

namespace Sys2Proof.Config

/-- The radix (R6). -/
def base : Nat := 45
/-- `BASE * BASE` (R6). -/
def base2 : Nat := 2025
/-- The largest value a three-character group may carry (R6). -/
def tripleMax : Nat := 65535
/-- The largest value a two-character group may carry (R6). -/
def pairMax : Nat := 255
/-- The largest value a three-character group can spell (R6). -/
def tripleTop : Nat := 91124
/-- The largest value a two-character group can spell (R6). -/
def pairTop : Nat := 2024
/-- The greatest number of beats one command emits (R30, R130). -/
def maxBeats : Nat := 3

/-- FREE VALUE: by how much `OQ_DEPTH` exceeds its least value 3 (R8, R30; log entry 4). -/
opaque extraDepth : Nat

/-- `OQ_DEPTH`, at least 3 (R8, R30). -/
def oqDepth : Nat := extraDepth + maxBeats

/-- FREE VALUE: for how many cycles `cmd_ready` stays low after the command accepted, or the reset
applied, at the given edge (R171, R182; log entry 6). -/
opaque cmdStall : Nat → Nat

/-- FREE VALUE: for how many cycles the beat that became the head of `OQ` at the given edge waits
before it is presented; for the first beat of a command this is `LAT_CMD` (R8, R182; log entry 6). -/
opaque outLatency : Nat → Nat

/-- FREE VALUE: what `out` carries at the given edge while `out_valid = 0` (log entry 7). -/
opaque idleOut : Nat → BeatWord

/-- FREE VALUE: `EHI` after the reset applied at the given edge (R34, R170; log entry 3). -/
opaque ehiAfterReset : Nat → Byte

/-- FREE VALUE: `DV0` after the reset applied at the given edge (R34, R170; log entry 3). -/
opaque dv0AfterReset : Nat → Val6

/-- FREE VALUE: `DV1` after the reset applied at the given edge (R34, R170; log entry 3). -/
opaque dv1AfterReset : Nat → Val6

end Sys2Proof.Config
end

