-- ==== Sys2Proof/Machine/State.lean ====
section
/-! DEFINITION. The state of base45_codec as plain data (R20, R30, R60), the ways a step can stop, and
the state right after reset (R34, R170). -/

namespace Sys2Proof.Machine

/-! ### The values registers and beats carry -/

/-- The three error kinds of the decoder (R150, R151). -/
inductive FaultKind where
  | invalidChar
  | dangling
  | overflow
deriving DecidableEq, Repr

/-- The outcome of a message, as `DERR` records it and an end beat reports it (R28, R151): no fault, or
one of the three kinds. One type serves both, as U9 allows; that `DERR` never holds Dangling between two
commands is an invariant (log entry 10). -/
inductive Status where
  | ok
  | fault (kind : FaultKind)
deriving DecidableEq, Repr

/-- `EPH`: how many bytes of the current pair the encoder holds (R21). -/
inductive EncPhase where
  | zero
  | one
deriving DecidableEq, Repr

/-- `DPH`: how many character values of the current group the decoder holds; 3 is unrepresentable
(R25, U8; log entry 11). -/
inductive DecPhase where
  | zero
  | one
  | two
deriving DecidableEq, Repr

/-- An output beat (R14, R67): a data beat of a lane with its symbol, or the end beat of a message of a
lane with its status. -/
inductive Beat where
  | data (lane : Lane) (symbol : Byte)
  | endOf (lane : Lane) (status : Status)
deriving DecidableEq, Repr

/-! ### The architectural registers -/

/-- The six registers, the whole architectural state `S` of the block (R20). -/
structure Regs where
  /-- `EPH`, 1 bit (R21). -/
  eph : EncPhase
  /-- `EHI`, 8 bits (R22). -/
  ehi : Byte
  /-- `DPH`, 2 bits (R25). -/
  dph : DecPhase
  /-- `DV0`, 6 bits (R26). -/
  dv0 : Val6
  /-- `DV1`, 6 bits (R26). -/
  dv1 : Val6
  /-- `DERR`, 2 bits (R28). -/
  derr : Status
deriving DecidableEq, Repr

/-! ### The pins and the waits -/

/-- What the host drives on the input pins at one rising edge of `clk` (R60). -/
structure PinsIn where
  rst : Bool
  cmdValid : Bool
  cmd : CmdWord
  outReady : Bool
deriving DecidableEq, Repr

/-- What the block drives on its output pins (R60). -/
structure PinsOut where
  cmdReady : Bool
  outValid : Bool
  out : BeatWord
deriving DecidableEq, Repr

/-- A wait of open, finite length (R8, R171, R182; log entry 6): over, or begun at some edge. -/
inductive Wait where
  | over
  | since (edge : Nat)
deriving DecidableEq, Repr

/-! ### The state -/

/-- The state of the block together with the two ends of its ports that the host holds. -/
structure State where
  /-- The six architectural registers (R20). -/
  regs : Regs
  /-- `OQ`: the beats emitted and not yet delivered, oldest first (R30). -/
  oq : List Beat
  /-- How long `cmd_ready` still stays low (R171, R182; log entry 6). -/
  cmdWait : Wait
  /-- How long the head of `OQ` still waits before it is presented (R8, R182; log entry 6). -/
  outWait : Wait
  /-- The command the host offered at the last edge without its being accepted (R61; log entry 8). -/
  held : Option CmdWord
  /-- The model's own count of rising edges, the argument of the free values (log entry 17). -/
  edge : Nat
  /-- The environment: what the host drives at the coming edges, the next one first (log entry 1). -/
  inputs : List PinsIn
  /-- The observation: the beats delivered since the last reset, oldest first (R14, R69; log entry 9). -/
  delivered : List Beat
deriving DecidableEq, Repr

/-! ### How a step can stop -/

/-- The faults of the machine: none. The three error kinds are results of a message and the machine goes
on (R160); the step never faults (R130; log entry 22). -/
inductive Fault where
deriving DecidableEq, Repr

/-- Why a step is refused. -/
inductive Refusal where
  /-- An instruction that has no meaning in this model yet; raised by no arm. Safe. -/
  | notModelled (mnemonic : String)
  /-- Raised by a clock edge at which the host withdraws or changes a command it offered and the block
  has not accepted, against its duty of R61; U11 says to refuse at the cycle level (log entry 8). Safe. -/
  | stalledCommandChanged (offered : CmdWord)
deriving DecidableEq, Repr

/-! ### Reset -/

/-- The registers right after reset (R34): `EPH`, `DPH` and `DERR` are 0. The spec leaves `EHI`, `DV0` and
`DV1` unspecified and warns against zero (U1, N6); the values here are the ones its rows E14 and D19 use to
stand for any value. DESIGN CHOICE, log entry 2. -/
def Regs.reset : Regs where
  eph := .zero
  ehi := 0x99
  dph := .zero
  dv0 := 0x3F
  dv1 := 0x3F
  derr := .ok

/-- The state right after reset (R34, R170): both lanes idle, nothing pending, nothing delivered. Edge 0 is
the reset edge, from which the wait of `cmd_ready` counts (R171). The host has driven nothing yet. -/
def State.reset : State where
  regs := Regs.reset
  oq := []
  cmdWait := .since 0
  outWait := .since 0
  held := none
  edge := 1
  inputs := []
  delivered := []

end Sys2Proof.Machine
end

