-- ==== Sys2Proof/Machine/Rom.lean ====
section
/-! DEFINITION. The alphabet ROM pair (R2a, R33, R40 to R45) and the two lookups (R80 to R85). The ROMs
are constants, not state (R32). -/

namespace Sys2Proof.Machine

/-! ### `V2C`, value to character -/

/-- The 45 entries of `V2C`, index 0 first: the `code` column of R81. -/
def v2cTable : List Byte :=
  [0x30, 0x31, 0x32, 0x33, 0x34, 0x35, 0x36, 0x37, 0x38, 0x39] ++
  [0x41, 0x42, 0x43, 0x44, 0x45, 0x46, 0x47, 0x48, 0x49, 0x4A, 0x4B, 0x4C, 0x4D] ++
  [0x4E, 0x4F, 0x50, 0x51, 0x52, 0x53, 0x54, 0x55, 0x56, 0x57, 0x58, 0x59, 0x5A] ++
  [0x20, 0x24, 0x25, 0x2A, 0x2B, 0x2D, 0x2E, 0x2F, 0x3A]

/-- `RomRead(V2C, i)`; the address is typed below 45, as R42 asks (log entry 24). -/
def romV2C (i : Digit) : Byte := v2cTable.getD i.val 0

/-- `UNLOOKUP(i)`, index to character code (R82). -/
def unlookup (i : Digit) : Byte := romV2C i

/-! ### `C2V`, character to value -/

/-- An entry of `C2V` as R41 asks it to be represented: not found, or a value (log entry 13). -/
abbrev C2VEntry := Option Digit

/-- A stretch of `n` codes that are not found. -/
def notFound (n : Nat) : List C2VEntry := List.replicate n none

/-- The values `lo`, `lo + 1`, ... of `n` consecutive codes. -/
def foundFrom (lo n : Nat) : List C2VEntry :=
  (List.range n).map fun k => if h : lo + k < 45 then some ⟨lo + k, h⟩ else none

/-- The 256 entries of `C2V`, code 0 first (R41, R81, R84). -/
def c2vTable : List C2VEntry :=
  notFound 0x20 ++
  -- 0x20 to 0x2F
  ([some 36] ++ notFound 3 ++ foundFrom 37 2 ++ notFound 4 ++ foundFrom 39 2 ++ notFound 1 ++ foundFrom 41 3) ++
  -- 0x30 to 0x3F
  (foundFrom 0 10 ++ [some 44] ++ notFound 5) ++
  -- 0x40 to 0x5F
  (notFound 1 ++ foundFrom 10 26 ++ notFound 5) ++
  -- 0x60 to 0xFF
  notFound 0xA0

/-- `RomRead(C2V, a)`; every one of the 256 addresses is populated (R40). -/
def romC2V (a : Byte) : C2VEntry := c2vTable.getD a.toNat none

/-- The 7-bit image of an entry, `{valid, value}` (R41, R70); a not-found entry is `{0, 0}`. -/
def C2VEntry.image : C2VEntry → BitVec 7
  | none => 0
  | some v => 1#1 ++ BitVec.ofNat 6 v.val

/-- `LOOKUP(a)`, character code to index; `none` is `NOTFOUND`, which is no number (R83). -/
def lookup (a : Byte) : Option Digit := romC2V a

end Sys2Proof.Machine
end

