-- ==== Sys2Proof/Machine/Operands.lean ====
section
/-! DEFINITION. The digit extractor and the value reconstructor (R2b, R90 to R102): pure functions,
exact on natural numbers. -/

namespace Sys2Proof.Machine

/-! ### Extractor (encoder side) -/

/-- `DIV45(n)`: quotient and remainder of a division by 45 (R91). The remainder is a digit. -/
def div45 (n : Nat) : Nat × Digit := (n / 45, ⟨n % 45, Nat.mod_lt n (by decide)⟩)

/-- The value of a byte pair, big-endian (R46, R110). -/
def pairValue (hi lo : Byte) : BitVec 16 := BitVec.ofNat 16 (hi.toNat * 256 + lo.toNat)

/-- The last quotient of the tree is at most 32, a legal address of `V2C` (R93). -/
theorem third_digit_lt (x : BitVec 16) : (div45 (div45 x.toNat).1).1 < 45 := by
  have h := x.isLt
  simp only [div45]
  omega

/-- The only quotient of a single byte is at most 5, a legal address of `V2C` (R95). -/
theorem second_digit_lt (u : Byte) : (div45 u.toNat).1 < 45 := by
  have h := u.isLt
  simp only [div45]
  omega

/-- `DIG3(x)`: the three digits of a pair's value, least significant first, by two divisions (R92). -/
def dig3 (x : BitVec 16) : Digit × Digit × Digit :=
  ((div45 x.toNat).2, (div45 (div45 x.toNat).1).2, ⟨(div45 (div45 x.toNat).1).1, third_digit_lt x⟩)

/-- `DIG2(u)`: the two digits of a single byte, least significant first (R94). -/
def dig2 (u : Byte) : Digit × Digit := ((div45 u.toNat).2, ⟨(div45 u.toNat).1, second_digit_lt u⟩)

/-! ### Reconstructor (decoder side) -/

/-- A digit as the registers `DV0` and `DV1` hold it, in 6 bits (R7, R26). -/
def digitVal (v : Digit) : Val6 := BitVec.ofNat 6 v.val

/-- `VAL3(c0, c1, c2)`, formed without narrowing (R90, R98). -/
def val3 (c0 c1 c2 : Val6) : Nat := c2.toNat * 2025 + c1.toNat * 45 + c0.toNat

/-- `VAL2(c0, c1)` (R99). -/
def val2 (c0 c1 : Val6) : Nat := c1.toNat * 45 + c0.toNat

/-- `SPLIT(x)`: the two bytes of a triple's value, the more significant first (R46, R102). -/
def splitBytes (x : Nat) : Byte × Byte := (BitVec.ofNat 8 (x / 256), BitVec.ofNat 8 (x % 256))

end Sys2Proof.Machine
end

