-- ==== Sys2Proof/Machine/Flags.lean ====
section
/-! DEFINITION. The range comparators, the status codes and the phase counters' numbers (R21, R25, R28,
R100, R151). `DERR` is the block's only flag. -/

namespace Sys2Proof.Machine

/-- `OVF3(x)`: a triple's value is out of range (R100). The comparison is strict. -/
def ovf3 (x : Nat) : Bool := decide (x > 65535)

/-- `OVF2(x)`: a final pair's value is out of range (R100). The comparison is strict. -/
def ovf2 (x : Nat) : Bool := decide (x > 255)

/-- The code of a fault kind (R15, R151). -/
def FaultKind.code : FaultKind → BitVec 2
  | .invalidChar => 1
  | .dangling => 2
  | .overflow => 3

/-- The 2-bit code of `DERR` and of the status field of an end beat (R28, R151). -/
def Status.code : Status → BitVec 2
  | .ok => 0
  | .fault k => k.code

/-- The number `EPH` holds (R21). -/
def EncPhase.bits : EncPhase → BitVec 1
  | .zero => 0
  | .one => 1

/-- The number `DPH` holds (R25). -/
def DecPhase.bits : DecPhase → BitVec 2
  | .zero => 0
  | .one => 1
  | .two => 2

/-- The lane bit of a beat (R67). -/
def laneBit : Lane → BitVec 1
  | .enc => 0
  | .dec => 1

end Sys2Proof.Machine
end

