-- ==== Sys2Proof/Machine/Ops.lean ====
section
/-! DEFINITION. The shared operations: what a command does (R130), emitting (R14, R67), recording a fault
and returning from one (R15, R157, R159), and applying a command's effect to the state. -/

namespace Sys2Proof.Machine

/-! ### Beats -/

/-- The 12-bit word of a beat, `{lane, end, status, data}` (R67). -/
def Beat.word : Beat → BeatWord
  | .data l d => laneBit l ++ (0#1 ++ (0#2 ++ d))
  | .endOf l s => laneBit l ++ (1#1 ++ (s.code ++ 0#8))

/-- The lane a beat belongs to (R67). -/
def Beat.lane : Beat → Lane
  | .data l _ => l
  | .endOf l _ => l

/-! ### Effects -/

/-- What one command does: the registers after it and the beats it emits, in order (R12, R130). -/
structure Effect where
  regs : Regs
  beats : List Beat
deriving DecidableEq, Repr

/-- A command that writes registers and emits nothing. -/
def quiet (r : Regs) : Effect := ⟨r, []⟩

/-- Data beats of a lane carrying the given symbols, in order (R14). -/
def dataBeats (l : Lane) (symbols : List Byte) : List Beat := symbols.map (.data l)

/-! ### Taking a fault and returning from one -/

/-- `raise <Kind>`: the one way a command of the decoder takes a fault (R15, R157). `DERR` takes the kind
unless one is recorded already; nothing is emitted, nothing else changes, and control goes nowhere. -/
def raiseFault (k : FaultKind) (r : Regs) : Effect :=
  match r.derr with
  | .ok => quiet { r with derr := .fault k }
  | .fault _ => quiet r

/-- The end of a decoder message and the return from a fault (R121, R159): the end beat reports the
outcome after the given data beats, and the lane is idle. -/
def endDecoder (s : Status) (symbols : List Byte) (r : Regs) : Effect :=
  ⟨{ r with dph := .zero, derr := .ok }, dataBeats .dec symbols ++ [.endOf .dec s]⟩

/-- The end of an encoder message (R111): the end beat, always of status 0, after the given data beats. -/
def endEncoder (symbols : List Byte) (r : Regs) : Effect :=
  ⟨{ r with eph := .zero }, dataBeats .enc symbols ++ [.endOf .enc .ok]⟩

/-! ### Applying an effect to the state -/

/-- The state after a command: its registers written, all together, and its beats appended to those still
pending (R12, R14, R30). -/
def State.commit (s : State) (e : Effect) : State :=
  { s with regs := e.regs, oq := s.oq ++ e.beats }

end Sys2Proof.Machine
end

