-- ==== Sys2Proof/Machine/Decoder.lean ====
section
/-! DEFINITION. The commands of lane 1 (R120, R121): the decoder half of the grouping sequencer. -/

namespace Sys2Proof.Machine

/-- `DECC ch` on the registers (R120). The checks stand in the spec's order: a fault recorded already
suppresses everything, then the validity of `ch`, then the range of the completed triple (R155, R156). -/
def deccEffect (ch : Byte) (r : Regs) : Effect :=
  match r.derr, lookup ch with
  | .fault _, _ => quiet r
  | .ok, none => raiseFault .invalidChar r
  | .ok, some v =>
    match r.dph with
    | .zero => quiet { r with dv0 := digitVal v, dph := .one }
    | .one => quiet { r with dv1 := digitVal v, dph := .two }
    | .two =>
      let x := val3 r.dv0 r.dv1 (digitVal v)
      if ovf3 x then raiseFault .overflow r
      else ⟨{ r with dph := .zero }, dataBeats .dec [(splitBytes x).1, (splitBytes x).2]⟩

/-- `DECE` on the registers (R121): a fault recorded earlier is reported as it is; otherwise the leftover
characters decide. -/
def deceEffect (r : Regs) : Effect :=
  match r.derr with
  | .fault k => endDecoder (.fault k) [] r
  | .ok =>
    match r.dph with
    | .zero => endDecoder .ok [] r
    | .one => endDecoder (.fault .dangling) [] r
    | .two =>
      let x := val2 r.dv0 r.dv1
      if ovf2 x then endDecoder (.fault .overflow) [] r
      else endDecoder .ok [BitVec.ofNat 8 x] r

/-- The meaning of `DECC ch` (R120). -/
def execDecc (ch : Byte) (s : State) : Host.Outcome State Fault Refusal :=
  .next (s.commit (deccEffect ch s.regs))

/-- The meaning of `DECE` (R121); the reserved field is ignored (R64). -/
def execDece (_reserved : Byte) (s : State) : Host.Outcome State Fault Refusal :=
  .next (s.commit (deceEffect s.regs))

end Sys2Proof.Machine
end

