-- ==== Sys2Proof/Machine/Encoder.lean ====
section
/-! DEFINITION. The commands of lane 0 (R110, R111): the encoder half of the grouping sequencer. -/

namespace Sys2Proof.Machine

/-- `ENCB d` on the registers (R110): the first byte of a pair is kept; the second completes it, and the
three characters of its value are emitted, least significant digit first. -/
def encbEffect (d : Byte) (r : Regs) : Effect :=
  match r.eph with
  | .zero => quiet { r with ehi := d, eph := .one }
  | .one =>
    let (c, b, a) := dig3 (pairValue r.ehi d)
    ⟨{ r with eph := .zero }, dataBeats .enc [unlookup c, unlookup b, unlookup a]⟩

/-- `ENCE` on the registers (R111): a trailing byte is emitted as two characters, then the end beat. -/
def enceEffect (r : Regs) : Effect :=
  match r.eph with
  | .zero => endEncoder [] r
  | .one =>
    let (b, a) := dig2 r.ehi
    endEncoder [unlookup b, unlookup a] r

/-- The meaning of `ENCB d` (R110). -/
def execEncb (d : Byte) (s : State) : Host.Outcome State Fault Refusal :=
  .next (s.commit (encbEffect d s.regs))

/-- The meaning of `ENCE` (R111); the reserved field is ignored (R64). -/
def execEnce (_reserved : Byte) (s : State) : Host.Outcome State Fault Refusal :=
  .next (s.commit (enceEffect s.regs))

end Sys2Proof.Machine
end

