-- ==== Sys2Proof/Machine/Dispatch.lean ====
section
/-! DEFINITION. One arm per command (R130). -/

namespace Sys2Proof.Machine

def exec (i : Instr) (s : State) : Host.Outcome State Fault Refusal :=
  match i with
  | .encb d => Sys2Proof.Machine.execEncb d s
  | .ence r => Sys2Proof.Machine.execEnce r s
  | .decc c => Sys2Proof.Machine.execDecc c s
  | .dece r => Sys2Proof.Machine.execDece r s

end Sys2Proof.Machine
end

