-- ==== Sys2Proof/Machine/Port.lean ====
section
/-! DEFINITION. The two ports, their handshakes, and what one rising edge of `clk` does (R60, R61, R69,
R170, R171, R178). -/

namespace Sys2Proof.Machine

/-! ### The handshake outputs -/

/-- Whether a wait is over just before the edge `now`: it lasts as many cycles as the free value of the
edge at which it began says, and so ends (R171, R182; log entry 6). -/
def Wait.done (cycles : Nat → Nat) (now : Nat) : Wait → Bool
  | .over => true
  | .since t => decide (t + cycles t < now)

/-- Whether the beats of any one command fit into the queue (R30, R178; log entry 5). -/
def hasRoom (oq : List Beat) : Bool := decide (oq.length + Config.maxBeats ≤ Config.oqDepth)

/-- `cmd_ready` while `rst = 0` (R30, R61, R171). It depends on no input pin (log entry 5). -/
def State.cmdReady (s : State) : Bool := s.cmdWait.done Config.cmdStall s.edge && hasRoom s.oq

/-- `out_valid` while `rst = 0` (R69): a beat is pending and its wait is over. It depends on no input pin. -/
def State.outValid (s : State) : Bool :=
  match s.oq with
  | [] => false
  | _ :: _ => s.outWait.done Config.outLatency s.edge

/-- What `out` carries: the word of the oldest pending beat, or a free value (R67, R69; log entry 7). -/
def State.outWord (s : State) : BeatWord :=
  match s.outValid, s.oq with
  | true, b :: _ => b.word
  | _, _ => Config.idleOut s.edge

/-- The output pins, given the level of `rst` (R60, R171). -/
def State.pinsOut (s : State) (rst : Bool) : PinsOut where
  cmdReady := !rst && s.cmdReady
  outValid := !rst && s.outValid
  out := if rst then Config.idleOut s.edge else s.outWord

/-! ### An edge with `rst = 1` -/

/-- The registers after a reset edge (R170): `EPH`, `DPH` and `DERR` are 0, the other three hold free
values (log entry 3). -/
def Regs.afterReset (edge : Nat) : Regs where
  eph := .zero
  ehi := Config.ehiAfterReset edge
  dph := .zero
  dv0 := Config.dv0AfterReset edge
  dv1 := Config.dv1AfterReset edge
  derr := .ok

/-- The state after a reset edge (R170, R172): pending beats are discarded, no command is accepted, no
beat is delivered, and the stream starts afresh. -/
def State.resetEdge (s : State) : State where
  regs := Regs.afterReset s.edge
  oq := []
  cmdWait := .since s.edge
  outWait := .since s.edge
  held := none
  edge := s.edge + 1
  inputs := s.inputs
  delivered := []

/-! ### An edge with `rst = 0` -/

/-- A command is accepted at this edge (R61). -/
def State.accepts (s : State) (p : PinsIn) : Bool := p.cmdValid && s.cmdReady

/-- The command word accepted at this edge, if one is (R61). -/
def State.acceptedWord (s : State) (p : PinsIn) : Option CmdWord :=
  if !p.rst && s.accepts p then some p.cmd else none

/-- A beat is delivered at this edge (R69). -/
def State.delivers (s : State) (p : PinsIn) : Bool := s.outValid && p.outReady

/-- The offered word the host must still hold and does not: its duty of R61 is broken (U11). -/
def State.brokenHold (s : State) (p : PinsIn) : Option CmdWord :=
  match s.held with
  | none => none
  | some w => if p.cmdValid && p.cmd == w then none else some w

/-- The output port at an edge: the oldest beat goes to the host if it is delivered, and the next one's wait
begins; while nothing is pending, the wait of the beat to come begins at this edge (R69, R182). -/
def State.deliver (s : State) (p : PinsIn) : State :=
  match s.delivers p, s.oq with
  | true, b :: rest => { s with oq := rest, delivered := s.delivered ++ [b], outWait := .since s.edge }
  | false, _ :: _ => s
  | _, [] => { s with outWait := .since s.edge }

/-- The command port at an edge, apart from the command's own effect: the stall of `cmd_ready` begins when a
command is accepted, and a command offered in vain must be held (R61). -/
def State.offer (s : State) (p : PinsIn) (accepted : Bool) : State :=
  { s with
    cmdWait := if accepted then .since s.edge else s.cmdWait
    held := if p.cmdValid && !accepted then some p.cmd else none
    edge := s.edge + 1 }

/-- Everything an edge without reset does around the command it accepts, if it accepts one. Whether it
accepts is settled by the queue as it stood before the edge's delivery (log entry 5). -/
def State.pastEdge (s : State) (p : PinsIn) : State := (s.deliver p).offer p (s.accepts p)

/-- One rising edge of `clk`. Reset wins over everything (R170); a broken hold is refused (R61, U11);
otherwise the beat on offer may go, and the accepted command, if any, is executed to completion (R51). -/
def clockEdge (p : PinsIn) (s : State) : Host.Outcome State Fault Refusal :=
  if p.rst then .next s.resetEdge
  else
    match s.brokenHold p with
    | some w => .refused (.stalledCommandChanged w)
    | none => if s.accepts p then exec (decode p.cmd) (s.pastEdge p) else .next (s.pastEdge p)

/-! ### Offering a command -/

/-- The queue given room for a command, if it has none, by the host's taking all that is pending; `OUT`
is the same (log entry 14). -/
def State.makeRoom (s : State) : State :=
  if hasRoom s.oq then s else { s with oq := [], delivered := s.delivered ++ s.oq }

/-- The pins of a host that offers a command and takes no beat. -/
def PinsIn.offering (w : CmdWord) : PinsIn := ⟨false, true, w, false⟩

end Sys2Proof.Machine
end

