-- ==== Sys2Proof/Machine/Step.lean ====
section
/-! DEFINITION. The step of the machine: one rising edge of `clk` (R60, R130; log entry 1). -/

namespace Sys2Proof.Machine

/-- One step: the next rising edge, with what the host drives at it. While the host's script is empty there
is no next edge and the state stays as it is (log entry 1). -/
def step (s : State) : Host.Outcome State Fault Refusal :=
  match s.inputs with
  | [] => .next s
  | p :: rest => clockEdge p { s with inputs := rest }

/-- `s` with the command word `w` offered at the next edge and the command port ready for it, so that the
next step accepts and runs it (log entry 14). -/
def State.withFetchWord (s : State) (_nbits w : Nat) : State :=
  { s.makeRoom with
    inputs := PinsIn.offering (BitVec.ofNat 10 w) :: s.inputs
    cmdWait := .over
    held := none }

end Sys2Proof.Machine
end

