-- ==== Sys2Proof/Machine/Messages.lean ====
section
/-! DEFINITION. Command streams, messages and their results, and the source's two functions (R130 to R142). -/

namespace Sys2Proof.Machine

/-! ### The step and the run on the architectural state -/

/-- What a command does to the six registers and which beats it emits. -/
def commandEffect : Instr → Regs → Effect
  | .encb d, r => encbEffect d r
  | .ence _, r => enceEffect r
  | .decc c, r => deccEffect c r
  | .dece _, r => deceEffect r

/-- `EXEC(S, w)` (R130). -/
def execWord (r : Regs) (w : CmdWord) : Effect := commandEffect (decode w) r

/-- The run of a list of commands (R131). -/
def run : Regs → List Instr → Effect
  | r, [] => ⟨r, []⟩
  | r, i :: is =>
    let first := commandEffect i r
    let later := run first.regs is
    ⟨later.regs, first.beats ++ later.beats⟩

/-- `RUN(S, ws)` (R131). -/
def runWords : Regs → List CmdWord → Effect
  | r, [] => ⟨r, []⟩
  | r, w :: ws =>
    let first := execWord r w
    let later := runWords first.regs ws
    ⟨later.regs, first.beats ++ later.beats⟩

/-! ### Messages and results -/

/-- The result of a message (R132). -/
inductive MessageResult where
  | ok (payload : List Byte)
  | err (kind : FaultKind)
deriving DecidableEq, Repr

/-- The inputs of the closed messages of a lane, in order, given the input of the message already open
(R132). -/
def messageInputs (l : Lane) : List Byte → List Instr → List (List Byte)
  | _, [] => []
  | sofar, i :: is =>
    if i.lane = l then
      if i.isEnd then sofar :: messageInputs l [] is else messageInputs l (sofar ++ [i.data]) is
    else messageInputs l sofar is

/-- The input of the message of a lane that is still open at the end (R132, R176). -/
def openInput (l : Lane) : List Byte → List Instr → List Byte
  | sofar, [] => sofar
  | sofar, i :: is =>
    if i.lane = l then
      if i.isEnd then openInput l [] is else openInput l (sofar ++ [i.data]) is
    else openInput l sofar is

/-- The result of a message with this payload and this status; the payload of a failed message is void
(R132, R157, R177). -/
def messageResult (payload : List Byte) : Status → MessageResult
  | .ok => .ok payload
  | .fault k => .err k

/-- The payloads and statuses of the messages whose end beats stand in a beat stream, given the payload seen
already (R132). Beats of the other lane are told apart by their lane (R179). -/
def laneMessages (l : Lane) : List Byte → List Beat → List (List Byte × Status)
  | _, [] => []
  | sofar, .data l' d :: bs => if l' = l then laneMessages l (sofar ++ [d]) bs else laneMessages l sofar bs
  | sofar, .endOf l' s :: bs => if l' = l then (sofar, s) :: laneMessages l [] bs else laneMessages l sofar bs

/-- The results a consumer that keeps its duties reads from a beat stream on a lane (R132, R177, R179). -/
def laneResults (l : Lane) (bs : List Beat) : List MessageResult :=
  (laneMessages l [] bs).map fun m => messageResult m.1 m.2

/-! ### The source's functions -/

/-- `ENCODE(bs)` (R133). -/
def encodeBytes : List Byte → List Byte
  | [] => []
  | [u] => [unlookup (dig2 u).1, unlookup (dig2 u).2]
  | hi :: lo :: r =>
    let (c, b, a) := dig3 (pairValue hi lo)
    unlookup c :: unlookup b :: unlookup a :: encodeBytes r

/-- A triple of character codes: its value's two bytes, or why it fails (R134, R155). -/
def decodeTriple (t0 t1 t2 : Byte) : MessageResult :=
  match lookup t0, lookup t1, lookup t2 with
  | some v0, some v1, some v2 =>
    let x := val3 (digitVal v0) (digitVal v1) (digitVal v2)
    if ovf3 x then .err .overflow else .ok [(splitBytes x).1, (splitBytes x).2]
  | _, _, _ => .err .invalidChar

/-- A final pair of character codes: its byte, or why it fails (R134, R155). -/
def decodePair (t0 t1 : Byte) : MessageResult :=
  match lookup t0, lookup t1 with
  | some v0, some v1 =>
    let x := val2 (digitVal v0) (digitVal v1)
    if ovf2 x then .err .overflow else .ok [BitVec.ofNat 8 x]
  | _, _ => .err .invalidChar

/-- A single leftover character code: always a failure (R134, R153). -/
def decodeLeftover (t0 : Byte) : MessageResult :=
  match lookup t0 with
  | some _ => .err .dangling
  | none => .err .invalidChar

/-- A result with bytes put in front of it when it is a success. -/
def MessageResult.after (bs : List Byte) : MessageResult → MessageResult
  | .ok p => .ok (bs ++ p)
  | .err k => .err k

/-- `DECODE(cs)` (R134): the first failing group, left to right, decides. -/
def decodeText : List Byte → MessageResult
  | [] => .ok []
  | [t0] => decodeLeftover t0
  | [t0, t1] => decodePair t0 t1
  | t0 :: t1 :: t2 :: r =>
    match decodeTriple t0 t1 t2 with
    | .err k => .err k
    | .ok bs => (decodeText r).after bs

/-- The bytes of the groups before the first failing group: the payload of a decoder message, void when it
fails (R134, R157). -/
def decodedBytes : List Byte → List Byte
  | [] => []
  | [_] => []
  | [t0, t1] =>
    match decodePair t0 t1 with
    | .err _ => []
    | .ok bs => bs
  | t0 :: t1 :: t2 :: r =>
    match decodeTriple t0 t1 t2 with
    | .err _ => []
    | .ok bs => bs ++ decodedBytes r

/-- `ENC b0 ... bn`: one whole encoder message (R72). -/
def encMessage (bs : List Byte) : List Instr := bs.map .encb ++ [.ence 0]

/-- `DEC "t0 ... tn"`: one whole decoder message (R72). -/
def decMessage (cs : List Byte) : List Instr := cs.map .decc ++ [.dece 0]

end Sys2Proof.Machine
end

