-- ==== Sys2Proof/WellFormed.lean ====
section
/-! DEFINITION. Which commands are well formed. Every operand is typed by its width (R63), so the one
thing left to check is what the host should do with the reserved field (R64, R71). The block itself
runs the ill-formed ones too, exactly as the well-formed (R64; log entry 16). -/

namespace Sys2Proof

/-- The canonical form of a command: the reserved field of `ENCE` and `DECE` is `0x00` (R62, R64). -/
def Instr.wellFormed : Instr → Bool
  | .encb _ => true
  | .ence r => r == 0
  | .decc _ => true
  | .dece r => r == 0

/-- The canonical command of the same meaning: the reserved field cleared (R64). -/
def Instr.canonical : Instr → Instr
  | .encb d => .encb d
  | .ence _ => .ence 0
  | .decc c => .decc c
  | .dece _ => .dece 0

end Sys2Proof
end

