-- ==== Sys2Proof/Machine/Asm.lean ====
section
/-! DEFINITION. The assembler syntax of commands and pseudo-commands (R71, R72; log entry 20). Text is a
list of characters; a line is one command, one pseudo-command, or nothing but a comment. -/

namespace Sys2Proof.Machine.Asm

/-! ### Tokens -/

/-- A token of a line. -/
inductive Token where
  /-- A mnemonic or a number. -/
  | word (cs : List Char)
  /-- A quoted single character. -/
  | quoted (c : Char)
  /-- A quoted string. -/
  | text (cs : List Char)
deriving DecidableEq, Repr

/-- Where the reader of a line stands. -/
inductive Mode where
  | between
  | inWord (sofar : List Char)
  | inText (sofar : List Char)
  | afterQuote
  | closing (c : Char)
deriving DecidableEq, Repr

/-- Blanks separate tokens. -/
def isBlank (c : Char) : Bool := c == ' ' || c == '\t' || c == '\r'

/-- The tokens of a line; `none` if a quotation is not closed. A semicolon outside a quotation starts a
comment (R71). -/
def tokens : Mode → List Char → Option (List Token)
  | .between, [] => some []
  | .between, c :: cs =>
    if c == ';' then some []
    else if isBlank c then tokens .between cs
    else if c == '"' then tokens (.inText []) cs
    else if c == '\'' then tokens .afterQuote cs
    else tokens (.inWord [c]) cs
  | .inWord w, [] => some [.word w]
  | .inWord w, c :: cs =>
    if c == ';' then some [.word w]
    else if isBlank c then (tokens .between cs).map (.word w :: ·)
    else if c == '"' || c == '\'' then none
    else tokens (.inWord (w ++ [c])) cs
  | .inText _, [] => none
  | .inText t, c :: cs =>
    if c == '"' then (tokens .between cs).map (.text t :: ·) else tokens (.inText (t ++ [c])) cs
  | .afterQuote, [] => none
  | .afterQuote, c :: cs => tokens (.closing c) cs
  | .closing _, [] => none
  | .closing q, c :: cs => if c == '\'' then (tokens .between cs).map (.quoted q :: ·) else none

/-! ### Operands -/

/-- The value of a digit in a radix. -/
def digitOf (radix : Nat) (c : Char) : Option Nat :=
  let v :=
    if '0'.toNat ≤ c.toNat ∧ c.toNat ≤ '9'.toNat then c.toNat - '0'.toNat
    else if 'A'.toNat ≤ c.toNat ∧ c.toNat ≤ 'F'.toNat then c.toNat - 'A'.toNat + 10
    else if 'a'.toNat ≤ c.toNat ∧ c.toNat ≤ 'f'.toNat then c.toNat - 'a'.toNat + 10
    else radix
  if v < radix then some v else none

/-- The value of a run of digits, most significant first. -/
def digitsOf (radix : Nat) (sofar : Nat) : List Char → Option Nat
  | [] => some sofar
  | c :: cs =>
    match digitOf radix c with
    | some v => digitsOf radix (sofar * radix + v) cs
    | none => none

/-- A number 0 to 255, decimal or prefixed `0x` (R9, R71). -/
def byteOf (w : List Char) : Option Byte :=
  let value :=
    match w with
    | [] => none
    | '0' :: 'x' :: c :: cs => digitsOf 16 0 (c :: cs)
    | c :: cs => digitsOf 10 0 (c :: cs)
  match value with
  | some n => if n < 256 then some (BitVec.ofNat 8 n) else none
  | none => none

/-- The ASCII code of a character (R71). -/
def asciiOf (c : Char) : Option Byte := if c.toNat < 128 then some (BitVec.ofNat 8 c.toNat) else none

/-- The operand of `ENCB`: a number (R71). -/
def byteOperand : Token → Option Byte
  | .word w => byteOf w
  | .quoted _ => none
  | .text _ => none

/-- The operand of `DECC`: a number or a quoted single character (R71). -/
def charOperand : Token → Option Byte
  | .word w => byteOf w
  | .quoted c => asciiOf c
  | .text _ => none

/-- The operands of a pseudo-command: numbers, or one quoted string (R72). -/
def symbolOperands : List Token → Option (List Byte)
  | [.text t] => t.mapM asciiOf
  | ts => ts.mapM byteOperand

/-! ### Lines and programs of text -/

/-- The commands a line stands for, given its mnemonic and operands (R71, R72). -/
def commandsOf (mnemonic : List Char) (operands : List Token) : Option (List Instr) :=
  if mnemonic = ['E', 'N', 'C', 'B'] then
    match operands with
    | [t] => (byteOperand t).map fun d => [.encb d]
    | _ => none
  else if mnemonic = ['E', 'N', 'C', 'E'] then
    if operands.isEmpty then some [.ence 0] else none
  else if mnemonic = ['D', 'E', 'C', 'C'] then
    match operands with
    | [t] => (charOperand t).map fun c => [.decc c]
    | _ => none
  else if mnemonic = ['D', 'E', 'C', 'E'] then
    if operands.isEmpty then some [.dece 0] else none
  else if mnemonic = ['E', 'N', 'C'] then (symbolOperands operands).map encMessage
  else if mnemonic = ['D', 'E', 'C'] then (symbolOperands operands).map decMessage
  else none

/-- The commands a line stands for; `none` if it is not a line of the syntax. -/
def assembleLine (line : List Char) : Option (List Instr) :=
  match tokens .between line with
  | some [] => some []
  | some (.word m :: operands) => commandsOf m operands
  | _ => none

/-- The lines of a text, given the line read so far. -/
def lines : List Char → List Char → List (List Char)
  | sofar, [] => [sofar]
  | sofar, c :: cs => if c == '\n' then sofar :: lines [] cs else lines (sofar ++ [c]) cs

/-- The commands a text stands for, one command a line (R71). -/
def assemble (text : List Char) : Option (List Instr) :=
  ((lines [] text).mapM assembleLine).map List.flatten

/-- A command as a line: its mnemonic and, for a symbol command, its operand in decimal (R71). The reserved
field of an END command has no text. -/
def render : Instr → List Char
  | .encb d => "ENCB ".toList ++ Nat.toDigits 10 d.toNat
  | .ence _ => "ENCE".toList
  | .decc c => "DECC ".toList ++ Nat.toDigits 10 c.toNat
  | .dece _ => "DECE".toList

end Sys2Proof.Machine.Asm
end

