-- ==== Sys2Proof/Safety.lean ====
section
/-! DEFINITION. What claims are stated in: idle lanes (R35), the invariant of reachable states (R29, R30,
R68), live registers (R22, R26, R131), the output stream (R14, R131) and complete runs (R180). -/

namespace Sys2Proof.Machine

/-! ### Idle lanes -/

/-- Lane `l` is idle (R35). -/
def Regs.idle (l : Lane) (r : Regs) : Prop :=
  match l with
  | .enc => r.eph = .zero
  | .dec => r.dph = .zero ∧ r.derr = .ok

/-! ### Reachable states -/

/-- A 6-bit register holds a digit value (R26). -/
def Val6.isDigit (v : Val6) : Prop := v.toNat ≤ 44

/-- The registers every command sequence from reset leaves (R25, R28, R29). -/
structure Regs.Reachable (r : Regs) : Prop where
  /-- `DERR` never holds Dangling between two commands (R28). -/
  derr : r.derr ≠ .fault .dangling
  /-- `DV0 <= 44` whenever `DPH >= 1` (R29). -/
  dv0 : r.dph ≠ .zero → Val6.isDigit r.dv0
  /-- `DV1 <= 44` whenever `DPH = 2` (R29). -/
  dv1 : r.dph = .two → Val6.isDigit r.dv1

/-- The beats that can occur (R68): on lane 0, data beats carrying an alphabet code and end beats of status
0; on lane 1, every byte and every status. -/
def Beat.Legal : Beat → Prop
  | .data .enc ch => ∃ i : Digit, ch = unlookup i
  | .endOf .enc s => s = .ok
  | .data .dec _ => True
  | .endOf .dec _ => True

/-- The invariant of reachable states: the registers are reachable, the queue holds no more than its depth
(R30), and every beat, pending or delivered, is one that can occur (R68). -/
structure State.Inv (s : State) : Prop where
  regs : s.regs.Reachable
  depth : s.oq.length ≤ Config.oqDepth
  pending : ∀ b ∈ s.oq, b.Legal
  taken : ∀ b ∈ s.delivered, b.Legal

/-! ### Live registers -/

/-- Two register files agree on everything a later command can read before it is written (R22, R26, R29,
U1): `EHI` only while `EPH = 1`; `DPH`, `DV0` and `DV1` only while no fault is recorded, and the last two
only at the phases that hold them. -/
structure Regs.LiveEq (r r' : Regs) : Prop where
  eph : r.eph = r'.eph
  ehi : r.eph = .one → r.ehi = r'.ehi
  derr : r.derr = r'.derr
  dph : r.derr = .ok → r.dph = r'.dph
  dv0 : r.derr = .ok → r.dph ≠ .zero → r.dv0 = r'.dv0
  dv1 : r.derr = .ok → r.dph = .two → r.dv1 = r'.dv1

/-- Two register files agree on the registers of a lane (R20). -/
def Regs.laneEq (l : Lane) (r r' : Regs) : Prop :=
  match l with
  | .enc => r.eph = r'.eph ∧ r.ehi = r'.ehi
  | .dec => r.dph = r'.dph ∧ r.dv0 = r'.dv0 ∧ r.dv1 = r'.dv1 ∧ r.derr = r'.derr

/-! ### Streams -/

/-- `OUT`: all the beats emitted since the last reset (R14, R69, R131). -/
def State.out (s : State) : List Beat := s.delivered ++ s.oq

/-- The beats of a lane (R132, R135). -/
def onLane (l : Lane) (bs : List Beat) : List Beat := bs.filter fun b => b.lane = l

/-- The commands of a lane (R132, R135). -/
def ofLane (l : Lane) (is : List Instr) : List Instr := is.filter fun i => i.lane = l

/-- Whether a beat is an end beat (R67). -/
def Beat.isEnd : Beat → Bool
  | .data _ _ => false
  | .endOf _ _ => true

/-! ### Runs of the clock -/

/-- The state with the host driving the pins `p` at the next `n` edges, and nothing after. -/
def State.driving (s : State) (p : PinsIn) (n : Nat) : State := { s with inputs := List.replicate n p }

/-- `n` steps of the machine. -/
def steps : Nat → State → Host.Outcome State Fault Refusal
  | 0, s => .next s
  | n + 1, s =>
    match step s with
    | .next t => steps n t
    | .fault f => .fault f
    | .refused r => .refused r

/-- The commands of a list executed one after the other (R51, R131). -/
def execAll : List Instr → State → Host.Outcome State Fault Refusal
  | [], s => .next s
  | i :: is, s =>
    match exec i s with
    | .next t => execAll is t
    | .fault f => .fault f
    | .refused r => .refused r

/-- The commands accepted in the next `n` steps, in order (R61). -/
def acceptedIn : Nat → State → List CmdWord
  | 0, _ => []
  | n + 1, s =>
    match step s with
    | .next t =>
      match s.inputs with
      | [] => acceptedIn n t
      | p :: _ => (s.acceptedWord p).toList ++ acceptedIn n t
    | _ => []

/-- What the host drives at successive edges keeps its duty of R61 while no command is accepted: a command
once offered is offered again, unchanged. -/
def offersHeld : List PinsIn → Prop
  | [] => True
  | [_] => True
  | p :: q :: ps => (p.cmdValid = true → q.cmdValid = true ∧ q.cmd = p.cmd) ∧ offersHeld (q :: ps)

/-- The host keeps its duty of R61 when it next drives `p`: a command it must hold is still offered. -/
def State.holdKept (s : State) (p : PinsIn) : Prop :=
  s.held = none ∨ (s.held = some p.cmd ∧ p.cmdValid = true)

/-- The host asserts no reset in the next `n` steps. -/
def State.noReset (s : State) (n : Nat) : Prop := ∀ p ∈ s.inputs.take n, p.rst = false

/-- A run of the commands `is`, ended with the machine at `s`, is complete: no message is open and no beat
is pending (R180). -/
def complete (is : List Instr) (s : State) : Prop :=
  openInput .enc [] is = [] ∧ openInput .dec [] is = [] ∧ s.oq = []

end Sys2Proof.Machine
end

