-- ==== Sys2Proof/Certificates/Slice0/Obligations.lean ====
section
/-! DEFINITION. The statements for the provers, from the numbered rules of the spec. -/

open Sys2Proof Sys2Proof.Machine

/-! ### Encoding (30_encoding.md) -/

/-- R62, R63, R65: the decoder and the encoder are inverse to each other on all commands and on all 1024
words, so no bit of a command word is dropped and no word is left without a command. -/
def Obligations.CommandWordsRoundTrip : Prop :=
  (∀ i : Instr, decode (encode i) = i) ∧ (∀ w : CmdWord, encode (decode w) = w)

/-- R62: words written out from the table of the encoding decode to the commands they stand for. -/
def Obligations.SampleWordsDecode : Prop :=
  decode 0b0001000001 = .encb 0x41 ∧ decode 0b0101111111 = .ence 0x7F ∧
  decode 0b1000111000 = .decc 0x38 ∧ decode 0b1110101011 = .dece 0xAB

/-- R73: the opcode map is the field `cmd[9:8]`: bit 9 is the lane, bit 8 says END, and exactly one row of the
opcode table matches each word under its mask, the row that bears the decoded command's mnemonic. -/
def Obligations.OpcodeMapIsFullyPopulated : Prop :=
  ∀ w : CmdWord,
    (((decode w).lane = .dec) ↔ w.getLsbD 9 = true) ∧
    (decode w).isEnd = w.getLsbD 8 ∧
    (w.getLsbD 9 = false → w.getLsbD 8 = false → (decode w).mnemonic = "ENCB") ∧
    (w.getLsbD 9 = false → w.getLsbD 8 = true → (decode w).mnemonic = "ENCE") ∧
    (w.getLsbD 9 = true → w.getLsbD 8 = false → (decode w).mnemonic = "DECC") ∧
    (w.getLsbD 9 = true → w.getLsbD 8 = true → (decode w).mnemonic = "DECE") ∧
    ((opcodeTable.filter fun row => row.accepts w).map OpRow.mnemonic) = [(decode w).mnemonic]

/-- R64: `ENCE` and `DECE` with any reserved field behave exactly as with `0x00`; they raise nothing and
record nothing; a decoder matches them on `cmd[9:8]` alone. -/
def Obligations.ReservedFieldIsIgnored : Prop :=
  (∀ (r : Byte) (s : State), exec (.ence r) s = exec (.ence 0x00) s ∧ exec (.dece r) s = exec (.dece 0x00) s) ∧
  (∀ (r : Byte) (s t : State), exec (.ence r) s = .next t → t.regs.derr = s.regs.derr) ∧
  (∀ (r : Byte) (s t : State), exec (.dece r) s = .next t → t.regs.derr = .ok) ∧
  (∀ w : CmdWord, w.extractLsb' 8 2 = 0b01 ↔ ∃ r, decode w = .ence r) ∧
  (∀ w : CmdWord, w.extractLsb' 8 2 = 0b11 ↔ ∃ r, decode w = .dece r)

/-- R67: the word of a beat is `{lane, end, status, data}`; a data beat has `end = 0` and status 0, an end beat
`end = 1` and data 0; the rows of the beat table. -/
def Obligations.BeatWordLayout : Prop :=
  (∀ (l : Lane) (d : Byte), (Beat.data l d).word.extractLsb' 11 1 = (if l = .enc then 0 else 1) ∧
    (Beat.data l d).word.extractLsb' 10 1 = 0 ∧ (Beat.data l d).word.extractLsb' 8 2 = 0 ∧
    (Beat.data l d).word.extractLsb' 0 8 = d) ∧
  (∀ (l : Lane) (s : Status), (Beat.endOf l s).word.extractLsb' 11 1 = (if l = .enc then 0 else 1) ∧
    (Beat.endOf l s).word.extractLsb' 10 1 = 1 ∧ (Beat.endOf l s).word.extractLsb' 8 2 = s.code ∧
    (Beat.endOf l s).word.extractLsb' 0 8 = 0) ∧
  (∀ d : Byte, (Beat.data .enc d).word.toNat = 0x000 + d.toNat ∧ (Beat.data .dec d).word.toNat = 0x800 + d.toNat) ∧
  (Beat.endOf .enc .ok).word = 0x400 ∧ (Beat.endOf .dec .ok).word = 0xC00 ∧
  (Beat.endOf .dec (.fault .invalidChar)).word = 0xD00 ∧ (Beat.endOf .dec (.fault .dangling)).word = 0xE00 ∧
  (Beat.endOf .dec (.fault .overflow)).word = 0xF00

/-- R67, R68: two beats with the same word are the same beat, so a consumer can read a beat off its word. -/
def Obligations.BeatWordDeterminesBeat : Prop := ∀ b b' : Beat, b.word = b'.word → b = b'

/-! ### The alphabet (20_memory.md, 40_alphabet_lookup.md) -/

/-- R85: the two lookups are inverse to each other, and each is injective. -/
def Obligations.LookupsAreInverse : Prop :=
  (∀ i : Digit, lookup (unlookup i) = some i) ∧
  (∀ (a : Byte) (v : Digit), lookup a = some v → unlookup v = a) ∧
  (∀ i j : Digit, unlookup i = unlookup j → i = j) ∧
  (∀ (a b : Byte) (v : Digit), lookup a = some v → lookup b = some v → a = b)

/-- R82, R83: the closed forms of `UNLOOKUP` and `LOOKUP`. -/
def Obligations.LookupClosedForms : Prop :=
  (∀ i : Digit, i.val ≤ 9 → (unlookup i).toNat = 0x30 + i.val) ∧
  (∀ i : Digit, 10 ≤ i.val → i.val ≤ 35 → (unlookup i).toNat = 0x41 + (i.val - 10)) ∧
  [unlookup 36, unlookup 37, unlookup 38, unlookup 39, unlookup 40, unlookup 41, unlookup 42, unlookup 43,
    unlookup 44] = [0x20, 0x24, 0x25, 0x2A, 0x2B, 0x2D, 0x2E, 0x2F, 0x3A] ∧
  (∀ a : Byte, 0x30 ≤ a.toNat → a.toNat ≤ 0x39 → ∃ v, lookup a = some v ∧ v.val = a.toNat - 0x30) ∧
  (∀ a : Byte, 0x41 ≤ a.toNat → a.toNat ≤ 0x5A → ∃ v, lookup a = some v ∧ v.val = a.toNat - 0x41 + 10) ∧
  [lookup 0x20, lookup 0x24, lookup 0x25, lookup 0x2A, lookup 0x2B, lookup 0x2D, lookup 0x2E, lookup 0x2F,
    lookup 0x3A] = [some 36, some 37, some 38, some 39, some 40, some 41, some 42, some 43, some 44] ∧
  (∀ a : Byte, (a.toNat < 0x30 ∨ 0x39 < a.toNat) → (a.toNat < 0x41 ∨ 0x5A < a.toNat) →
    a ∉ [(0x20 : Byte), 0x24, 0x25, 0x2A, 0x2B, 0x2D, 0x2E, 0x2F, 0x3A] → lookup a = none)

/-- R84: exactly 45 codes are found, namely 0x20, 0x24, 0x25, 0x2A, 0x2B, 0x2D, 0x2E, 0x2F, 0x30 to 0x3A and
0x41 to 0x5A; the other 211 are not, lower-case letters and all codes from 0x80 up among them. -/
def Obligations.ExactlyTheAlphabetIsFound : Prop :=
  (∀ a : Byte, (lookup a).isSome = true ↔
    (a ∈ [(0x20 : Byte), 0x24, 0x25, 0x2A, 0x2B, 0x2D, 0x2E, 0x2F] ∨
      (0x30 ≤ a.toNat ∧ a.toNat ≤ 0x3A) ∨ (0x41 ≤ a.toNat ∧ a.toNat ≤ 0x5A))) ∧
  ((List.range 256).filter fun n => (lookup (BitVec.ofNat 8 n)).isSome).length = 45 ∧
  ((List.range 256).filter fun n => (lookup (BitVec.ofNat 8 n)).isNone).length = 211

/-- R41, R70: the 7-bit image of a `C2V` entry is `{1, i}` for the code of the character of index `i` and
`{0, 0}` for a code that is not found. -/
def Obligations.CharacterRomImage : Prop :=
  (∀ i : Digit, ((romC2V (unlookup i)).image).toNat = 64 + i.val) ∧
  (∀ a : Byte, lookup a = none → (romC2V a).image = 0)

/-! ### The digit extractor and the value reconstructor (41_digit_extractor.md) -/

/-- R93: the digits of a 16-bit value are its base-45 representation, `a <= 32` and attained, `q1 <= 1456`,
and no other triple of naturals has the property. -/
def Obligations.TripleDigitsArePositional : Prop :=
  (∀ x : BitVec 16,
    (let (c, b, a) := dig3 x
     x.toNat = a.val * 2025 + b.val * 45 + c.val ∧ c.val ≤ 44 ∧ b.val ≤ 44 ∧ a.val ≤ 32) ∧
    (div45 x.toNat).1 ≤ 1456 ∧
    (∀ c b a : Nat, c ≤ 44 → b ≤ 44 → a * 2025 + b * 45 + c = x.toNat →
      c = (dig3 x).1.val ∧ b = (dig3 x).2.1.val ∧ a = (dig3 x).2.2.val) ∧
    (64800 ≤ x.toNat → (dig3 x).2.2.val = 32)) ∧
  dig3 65535 = (15, 16, 32)

/-- R95: the digits of a single byte are its base-45 representation, `a <= 5`, and no other pair has the
property. -/
def Obligations.PairDigitsArePositional : Prop :=
  ∀ u : Byte,
    (let (b, a) := dig2 u
     u.toNat = a.val * 45 + b.val ∧ b.val ≤ 44 ∧ a.val ≤ 5) ∧
    (∀ b a : Nat, b ≤ 44 → a * 45 + b = u.toNat → b = (dig2 u).1.val ∧ a = (dig2 u).2.val)

/-- R96: for a single byte the tree gives the byte's two digits and a third digit 0. -/
def Obligations.OneTreeServesBothGroupSizes : Prop :=
  ∀ u : Byte, dig3 (u.setWidth 16) = ((dig2 u).1, (dig2 u).2, 0)

/-- R98, R99, R100: the values of groups of digits, their ranges with both ends attained, and what the
comparators test. -/
def Obligations.GroupValuesAndComparators : Prop :=
  (∀ c0 c1 c2 : Digit,
    val3 (digitVal c0) (digitVal c1) (digitVal c2) = c2.val * 2025 + c1.val * 45 + c0.val ∧
    val3 (digitVal c0) (digitVal c1) (digitVal c2) = (c2.val * 45 + c1.val) * 45 + c0.val ∧
    val3 (digitVal c0) (digitVal c1) (digitVal c2) ≤ 91124 ∧
    val2 (digitVal c0) (digitVal c1) = c1.val * 45 + c0.val ∧
    val2 (digitVal c0) (digitVal c1) = val3 (digitVal c0) (digitVal c1) 0 ∧
    val2 (digitVal c0) (digitVal c1) ≤ 2024) ∧
  val3 0 0 0 = 0 ∧ val3 44 44 44 = 91124 ∧ val2 0 0 = 0 ∧ val2 44 44 = 2024 ∧
  (∀ x : BitVec 17, (ovf3 x.toNat = true ↔ 65535 < x.toNat) ∧ ovf3 x.toNat = x.getLsbD 16) ∧
  (∀ x : BitVec 11, (ovf2 x.toNat = true ↔ 255 < x.toNat) ∧ ovf2 x.toNat = (x.extractLsb' 8 3 != 0))

/-- R101: which groups of digits overflow, as conditions on the digits, and how many. -/
def Obligations.OverflowingGroups : Prop :=
  (∀ c0 c1 c2 : Digit, ovf3 (val3 (digitVal c0) (digitVal c1) (digitVal c2)) = true ↔
    (33 ≤ c2.val ∨ (c2.val = 32 ∧ 17 ≤ c1.val) ∨ (c2.val = 32 ∧ c1.val = 16 ∧ 16 ≤ c0.val))) ∧
  (∀ c0 c1 : Digit, ovf2 (val2 (digitVal c0) (digitVal c1)) = true ↔
    (6 ≤ c1.val ∨ (c1.val = 5 ∧ 31 ≤ c0.val))) ∧
  (Finset.univ.filter fun t : Digit × Digit × Digit =>
    ovf3 (val3 (digitVal t.1) (digitVal t.2.1) (digitVal t.2.2)) = false).card = 65536 ∧
  (Finset.univ.filter fun t : Digit × Digit × Digit =>
    ovf3 (val3 (digitVal t.1) (digitVal t.2.1) (digitVal t.2.2)) = true).card = 25589 ∧
  (Finset.univ.filter fun t : Digit × Digit =>
    ovf2 (val2 (digitVal t.1) (digitVal t.2)) = false).card = 256 ∧
  (Finset.univ.filter fun t : Digit × Digit =>
    ovf2 (val2 (digitVal t.1) (digitVal t.2)) = true).card = 1769

/-- R102: the byte splitter, more significant byte first, and its inverse. -/
def Obligations.ByteSplitter : Prop :=
  (∀ x : BitVec 16, splitBytes x.toNat = (x.extractLsb' 8 8, x.extractLsb' 0 8) ∧
    (splitBytes x.toNat).1.toNat = x.toNat / 256 ∧ (splitBytes x.toNat).2.toNat = x.toNat % 256) ∧
  (∀ hi lo : Byte, splitBytes (hi.toNat * 256 + lo.toNat) = (hi, lo)) ∧
  splitBytes 16706 = (0x41, 0x42)

/-- R103: extractor and reconstructor are inverse on the in-range values. -/
def Obligations.ExtractorAndReconstructorAreInverse : Prop :=
  (∀ x : BitVec 16,
    val3 (digitVal (dig3 x).1) (digitVal (dig3 x).2.1) (digitVal (dig3 x).2.2) = x.toNat ∧
    ovf3 (val3 (digitVal (dig3 x).1) (digitVal (dig3 x).2.1) (digitVal (dig3 x).2.2)) = false) ∧
  (∀ c0 c1 c2 : Digit, val3 (digitVal c0) (digitVal c1) (digitVal c2) ≤ 65535 →
    dig3 (BitVec.ofNat 16 (val3 (digitVal c0) (digitVal c1) (digitVal c2))) = (c0, c1, c2)) ∧
  (∀ u : Byte, val2 (digitVal (dig2 u).1) (digitVal (dig2 u).2) = u.toNat ∧
    ovf2 (val2 (digitVal (dig2 u).1) (digitVal (dig2 u).2)) = false) ∧
  (∀ c0 c1 : Digit, val2 (digitVal c0) (digitVal c1) ≤ 255 →
    dig2 (BitVec.ofNat 8 (val2 (digitVal c0) (digitVal c1))) = (c0, c1))

/-! ### The commands (42_encode_commands.md, 43_decode_commands.md) -/

/-- R110, R111 (tabulated by R112): `ENCB` and `ENCE` complete in every state, with exactly the state and the
beats of the matching row; and their words. -/
def Obligations.EncoderTransitionTable : Prop :=
  ∀ (s : State) (d h rsv : Byte),
    (encode (.encb d)).toNat = 0x000 + d.toNat ∧ encode (.ence 0x00) = 0x100 ∧
    (s.regs.eph = .zero →
      exec (.encb d) s = .next { s with regs := { s.regs with eph := .one, ehi := d } }) ∧
    (s.regs.eph = .one → s.regs.ehi = h →
      exec (.encb d) s = .next { s with
        regs := { s.regs with eph := .zero }
        oq := s.oq ++
          [.data .enc (unlookup (dig3 (BitVec.ofNat 16 (h.toNat * 256 + d.toNat))).1),
           .data .enc (unlookup (dig3 (BitVec.ofNat 16 (h.toNat * 256 + d.toNat))).2.1),
           .data .enc (unlookup (dig3 (BitVec.ofNat 16 (h.toNat * 256 + d.toNat))).2.2)] }) ∧
    (s.regs.eph = .zero →
      exec (.ence rsv) s = .next { s with oq := s.oq ++ [.endOf .enc .ok] }) ∧
    (s.regs.eph = .one → s.regs.ehi = h →
      exec (.ence rsv) s = .next { s with
        regs := { s.regs with eph := .zero }
        oq := s.oq ++
          [.data .enc (unlookup (dig2 h).1), .data .enc (unlookup (dig2 h).2), .endOf .enc .ok] })

/-- R120, R121 (tabulated by R122): `DECC` and `DECE` complete in every state, with exactly the state and the
beats of the matching row; and their words. -/
def Obligations.DecoderTransitionTable : Prop :=
  ∀ (s : State) (ch rsv : Byte) (v : Digit) (k : FaultKind),
    (encode (.decc ch)).toNat = 0x200 + ch.toNat ∧ encode (.dece 0x00) = 0x300 ∧
    (s.regs.derr = .fault k → exec (.decc ch) s = .next s) ∧
    (s.regs.derr = .ok → lookup ch = none →
      exec (.decc ch) s = .next { s with regs := { s.regs with derr := .fault .invalidChar } }) ∧
    (s.regs.derr = .ok → s.regs.dph = .zero → lookup ch = some v →
      exec (.decc ch) s = .next { s with regs := { s.regs with dph := .one, dv0 := digitVal v } }) ∧
    (s.regs.derr = .ok → s.regs.dph = .one → lookup ch = some v →
      exec (.decc ch) s = .next { s with regs := { s.regs with dph := .two, dv1 := digitVal v } }) ∧
    (s.regs.derr = .ok → s.regs.dph = .two → lookup ch = some v →
      val3 s.regs.dv0 s.regs.dv1 (digitVal v) ≤ 65535 →
      exec (.decc ch) s = .next { s with
        regs := { s.regs with dph := .zero }
        oq := s.oq ++
          [.data .dec (BitVec.ofNat 8 (val3 s.regs.dv0 s.regs.dv1 (digitVal v) / 256)),
           .data .dec (BitVec.ofNat 8 (val3 s.regs.dv0 s.regs.dv1 (digitVal v) % 256))] }) ∧
    (s.regs.derr = .ok → s.regs.dph = .two → lookup ch = some v →
      65535 < val3 s.regs.dv0 s.regs.dv1 (digitVal v) →
      exec (.decc ch) s = .next { s with regs := { s.regs with derr := .fault .overflow } }) ∧
    (s.regs.derr = .fault k →
      exec (.dece rsv) s = .next { s with
        regs := { s.regs with dph := .zero, derr := .ok }
        oq := s.oq ++ [.endOf .dec (.fault k)] }) ∧
    (s.regs.derr = .ok → s.regs.dph = .zero →
      exec (.dece rsv) s = .next { s with oq := s.oq ++ [.endOf .dec .ok] }) ∧
    (s.regs.derr = .ok → s.regs.dph = .one →
      exec (.dece rsv) s = .next { s with
        regs := { s.regs with dph := .zero }
        oq := s.oq ++ [.endOf .dec (.fault .dangling)] }) ∧
    (s.regs.derr = .ok → s.regs.dph = .two → val2 s.regs.dv0 s.regs.dv1 ≤ 255 →
      exec (.dece rsv) s = .next { s with
        regs := { s.regs with dph := .zero }
        oq := s.oq ++
          [.data .dec (BitVec.ofNat 8 (val2 s.regs.dv0 s.regs.dv1)), .endOf .dec .ok] }) ∧
    (s.regs.derr = .ok → s.regs.dph = .two → 255 < val2 s.regs.dv0 s.regs.dv1 →
      exec (.dece rsv) s = .next { s with
        regs := { s.regs with dph := .zero }
        oq := s.oq ++ [.endOf .dec (.fault .overflow)] })

/-- R46, R47, R110, R111: the characters of a completed pair, and of a trailing byte, spell its value in base
45, least significant digit first, the third digit of a pair at most 32 and the second of a byte at most 5.
The digits are named by their positional law, not by the extractor. -/
def Obligations.EncoderEmitsThePositionalDigits : Prop :=
  ∀ (s : State) (d rsv : Byte), s.regs.eph = .one →
    (∃ c b a : Digit, s.regs.ehi.toNat * 256 + d.toNat = a.val * 2025 + b.val * 45 + c.val ∧ a.val ≤ 32 ∧
      exec (.encb d) s = .next { s with
        regs := { s.regs with eph := .zero }
        oq := s.oq ++ [.data .enc (unlookup c), .data .enc (unlookup b), .data .enc (unlookup a)] }) ∧
    (∃ b a : Digit, s.regs.ehi.toNat = a.val * 45 + b.val ∧ a.val ≤ 5 ∧
      exec (.ence rsv) s = .next { s with
        regs := { s.regs with eph := .zero }
        oq := s.oq ++ [.data .enc (unlookup b), .data .enc (unlookup a), .endOf .enc .ok] })

/-- R20, R22, R110, R111: the frame of `ENCB` and `ENCE`. They change nothing but `EPH`, `EHI` and the queue;
`EHI` only by `ENCB` at `EPH = 0`; and what they append to the queue are beats of lane 0. There is no memory
and no other register. -/
def Obligations.EncoderCommandsFrame : Prop :=
  ∀ (i : Instr) (s t : State), i.lane = .enc → exec i s = .next t →
    (t.regs.dph = s.regs.dph ∧ t.regs.dv0 = s.regs.dv0 ∧ t.regs.dv1 = s.regs.dv1 ∧ t.regs.derr = s.regs.derr) ∧
    ((i.isEnd = true ∨ s.regs.eph = .one) → t.regs.ehi = s.regs.ehi) ∧
    (∃ bs, t.oq = s.oq ++ bs ∧ ∀ b ∈ bs, b.lane = .enc) ∧
    t.cmdWait = s.cmdWait ∧ t.outWait = s.outWait ∧ t.held = s.held ∧ t.edge = s.edge ∧
    t.inputs = s.inputs ∧ t.delivered = s.delivered

/-- R20, R26, R28, R120, R121: the frame of `DECC` and `DECE`. They change nothing but `DPH`, `DV0`, `DV1`, `DERR`
and the queue; `DV0` only by `DECC` at `DPH = 0`, `DV1` only by `DECC` at `DPH = 1`; `DERR` is changed by `DECC`
only from none to InvalidChar or Overflow; and what they append to the queue are beats of lane 1. -/
def Obligations.DecoderCommandsFrame : Prop :=
  ∀ (i : Instr) (s t : State), i.lane = .dec → exec i s = .next t →
    (t.regs.eph = s.regs.eph ∧ t.regs.ehi = s.regs.ehi) ∧
    ((i.isEnd = true ∨ s.regs.dph ≠ .zero) → t.regs.dv0 = s.regs.dv0) ∧
    ((i.isEnd = true ∨ s.regs.dph ≠ .one) → t.regs.dv1 = s.regs.dv1) ∧
    (i.isEnd = false → t.regs.derr = s.regs.derr ∨
      (s.regs.derr = .ok ∧ (t.regs.derr = .fault .invalidChar ∨ t.regs.derr = .fault .overflow))) ∧
    (∃ bs, t.oq = s.oq ++ bs ∧ ∀ b ∈ bs, b.lane = .dec) ∧
    t.cmdWait = s.cmdWait ∧ t.outWait = s.outWait ∧ t.held = s.held ∧ t.edge = s.edge ∧
    t.inputs = s.inputs ∧ t.delivered = s.delivered

/-- R130: `EXEC` is total: every command in every state completes, never faults and is never refused, emits at
most three beats, and changes nothing but the six registers and the queue, by the effect of its word. -/
def Obligations.EveryCommandCompletes : Prop :=
  ∀ (i : Instr) (s : State),
    (execWord s.regs (encode i)).beats.length ≤ 3 ∧
    exec i s = .next { s with
      regs := (execWord s.regs (encode i)).regs
      oq := s.oq ++ (execWord s.regs (encode i)).beats }

/-! ### Faults (60_exceptions.md) -/

/-- R152, R153, R154: when exactly each kind of fault is raised, with no fault recorded before. `DECC` records
InvalidChar exactly when its code is not found, Overflow exactly when it completes a triple above 65535, never
Dangling; `DECE` reports Dangling exactly at `DPH = 1` and Overflow exactly for a final pair above 255. -/
def Obligations.FaultsAreRaisedExactly : Prop :=
  ∀ (s : State) (ch rsv : Byte), s.regs.derr = .ok →
    (∃ t, exec (.decc ch) s = .next t ∧
      (t.regs.derr = .fault .invalidChar ↔ lookup ch = none) ∧
      (t.regs.derr = .fault .overflow ↔
        s.regs.dph = .two ∧ ∃ v, lookup ch = some v ∧ 65535 < val3 s.regs.dv0 s.regs.dv1 (digitVal v)) ∧
      t.regs.derr ≠ .fault .dangling) ∧
    (∃ t, exec (.dece rsv) s = .next t ∧ t.regs.derr = .ok ∧
      (t.oq.getLast? = some (.endOf .dec (.fault .dangling)) ↔ s.regs.dph = .one) ∧
      (t.oq.getLast? = some (.endOf .dec (.fault .overflow)) ↔
        s.regs.dph = .two ∧ 255 < val2 s.regs.dv0 s.regs.dv1) ∧
      t.oq.getLast? ≠ some (.endOf .dec (.fault .invalidChar)))

/-- R15, R157: taking a fault. When a `DECC` records a fault, `DERR` takes its code and nothing else in the
state changes: `DPH`, `DV0`, `DV1` stay as they were and no beat is emitted. -/
def Obligations.FaultEntryChangesOnlyTheFaultRegister : Prop :=
  ∀ (s t : State) (ch : Byte), exec (.decc ch) s = .next t → t.regs.derr ≠ s.regs.derr →
    s.regs.derr = .ok ∧ (t.regs.derr = .fault .invalidChar ∨ t.regs.derr = .fault .overflow) ∧
    t = { s with regs := { s.regs with derr := t.regs.derr } }

/-- R28, R156, R158, R159: a recorded fault is sticky. However many `DECC` follow, nothing changes and nothing
is emitted; the `DECE` that comes then emits one beat, the end beat with the recorded kind, and leaves the lane
idle. -/
def Obligations.RecordedFaultIsReportedOnce : Prop :=
  ∀ (s : State) (k : FaultKind) (cs : List Byte) (rsv : Byte), s.regs.derr = .fault k →
    execAll (cs.map Instr.decc) s = .next s ∧
    execAll (cs.map Instr.decc ++ [.dece rsv]) s = .next { s with
      regs := { s.regs with dph := .zero, derr := .ok }
      oq := s.oq ++ [.endOf .dec (.fault k)] }

/-- R155: inside one group validity comes before range and before structure, and range decides a valid group. -/
def Obligations.GroupFaultPriority : Prop :=
  (∀ t0 t1 t2 : Byte, decodeText [t0, t1, t2] = .err .invalidChar ↔
    (lookup t0 = none ∨ lookup t1 = none ∨ lookup t2 = none)) ∧
  (∀ t0 t1 : Byte, decodeText [t0, t1] = .err .invalidChar ↔ (lookup t0 = none ∨ lookup t1 = none)) ∧
  (∀ t0 : Byte, (decodeText [t0] = .err .invalidChar ↔ lookup t0 = none) ∧
    (decodeText [t0] = .err .dangling ↔ lookup t0 ≠ none)) ∧
  (∀ v0 v1 v2 : Digit, decodeText [unlookup v0, unlookup v1, unlookup v2] = .err .overflow ↔
    65535 < v2.val * 2025 + v1.val * 45 + v0.val) ∧
  (∀ v0 v1 : Digit, decodeText [unlookup v0, unlookup v1] = .err .overflow ↔ 255 < v1.val * 45 + v0.val)

/-- R86: from the first character outside the alphabet on, the text does not matter, so a multi-octet character
gives the outcome one unrecognized symbol would; every octet from 0x80 up is unrecognized. -/
def Obligations.NothingAfterAnUnrecognizedCharacterMatters : Prop :=
  (∀ (before after after' : List Byte) (a b : Byte), lookup a = none → lookup b = none →
    decodeText (before ++ a :: after) = decodeText (before ++ b :: after')) ∧
  (∀ a : Byte, 0x80 ≤ a.toNat → lookup a = none)

/-! ### Command streams and messages (44_message_semantics.md) -/

/-- R51, R131: executing a list of commands one after the other is `RUN`: the registers are `RUN`'s, and the
queue grows by `RUN`'s beats, in command order. -/
def Obligations.ExecutingCommandsIsRun : Prop :=
  (∀ (is : List Instr) (s : State), execAll is s = .next { s with
    regs := (run s.regs is).regs
    oq := s.oq ++ (run s.regs is).beats }) ∧
  (∀ (ws : List CmdWord) (r : Regs), runWords r ws = run r (ws.map decode))

/-- R22, R26, R131, U1: the registers that hold nothing are unobservable. Two register files that agree on what
is live give the same beats under every command sequence and stay so; in particular the values of `EHI`, `DV0`
and `DV1` at reset (the model's own choice, log entry 2) are never seen. -/
def Obligations.DeadRegistersAreUnobservable : Prop :=
  (∀ (r r' : Regs) (is : List Instr), r.LiveEq r' →
    (run r is).beats = (run r' is).beats ∧ (run r is).regs.LiveEq (run r' is).regs) ∧
  (∀ (hi : Byte) (v0 v1 : Val6) (is : List Instr),
    (run { Regs.reset with ehi := hi, dv0 := v0, dv1 := v1 } is).beats = (run Regs.reset is).beats)

/-- R35: `ENCE` leaves lane 0 idle, `DECE` leaves lane 1 idle, reset leaves both idle; and an idle lane behaves,
for every later command sequence, exactly as from reset. -/
def Obligations.IdleLaneBehavesAsFromReset : Prop :=
  (∀ (s t : State) (rsv : Byte), exec (.ence rsv) s = .next t → t.regs.idle .enc) ∧
  (∀ (s t : State) (rsv : Byte), exec (.dece rsv) s = .next t → t.regs.idle .dec) ∧
  (∀ l : Lane, Regs.reset.idle l) ∧
  (∀ (l : Lane) (r : Regs) (is : List Instr), r.idle l →
    onLane l (run r is).beats = onLane l (run Regs.reset is).beats)

/-- R135: the beats of a lane are a function of that lane's commands alone; commands of the other lane change
nothing in them, however they are interleaved. -/
def Obligations.LanesDoNotInterfere : Prop :=
  (∀ (l : Lane) (r : Regs) (is : List Instr),
    onLane l (run r is).beats = (run r (ofLane l is)).beats ∧
    (run r is).regs.laneEq l (run r (ofLane l is)).regs) ∧
  (∀ (l : Lane) (r : Regs) (is js : List Instr), ofLane l is = ofLane l js →
    onLane l (run r is).beats = onLane l (run r js).beats)

/-- R132: every END command of a lane emits exactly one end beat of that lane, and nothing else does. -/
def Obligations.OneEndBeatPerEndCommand : Prop :=
  ∀ (l : Lane) (r : Regs) (is : List Instr),
    ((onLane l (run r is).beats).filter Beat.isEnd).length = ((ofLane l is).filter Instr.isEnd).length

/-- R133: an encoder message with input `bs`, started with lane 0 idle, has the result `Ok (ENCODE(bs))`, for
every `bs`, whatever lane-1 commands are interleaved with it. -/
def Obligations.EncoderMessageComputesEncode : Prop :=
  ∀ (r : Regs) (is : List Instr) (bs : List Byte) (rsv : Byte), r.idle .enc →
    ofLane .enc is = bs.map Instr.encb ++ [.ence rsv] →
    laneResults .enc (run r is).beats = [.ok (encodeBytes bs)]

/-- R134: a decoder message with input `cs`, started with lane 1 idle, has the result `DECODE(cs)`, for every
`cs`, whatever lane-0 commands are interleaved with it; and its payload, void when the result is an error, is
exactly the bytes of the groups before the failing one. -/
def Obligations.DecoderMessageComputesDecode : Prop :=
  ∀ (r : Regs) (is : List Instr) (cs : List Byte) (rsv : Byte), r.idle .dec →
    ofLane .dec is = cs.map Instr.decc ++ [.dece rsv] →
    laneResults .dec (run r is).beats = [decodeText cs] ∧
    (laneMessages .dec [] (run r is).beats).map Prod.fst = [decodedBytes cs]

/-- R132, R133, R134, R136: in every command sequence from reset, the result of each closed message of lane 0 is
`ENCODE` of its own input and that of each closed message of lane 1 is `DECODE` of its own input: messages do
not interfere. -/
def Obligations.EveryMessageHasItsOwnResult : Prop :=
  ∀ is : List Instr,
    laneResults .enc (run Regs.reset is).beats =
      (messageInputs .enc [] is).map (fun bs => MessageResult.ok (encodeBytes bs)) ∧
    laneResults .dec (run Regs.reset is).beats = (messageInputs .dec [] is).map decodeText

/-- R137: decoding what was encoded gives it back, for the source's functions and for the hardware: the payload
of an encoder message, fed back as a decoder message, gives the encoder message's input with status 0. -/
def Obligations.DecodingTheEncodingGivesItBack : Prop :=
  (∀ bs : List Byte, decodeText (encodeBytes bs) = .ok bs) ∧
  (∀ (r : Regs) (bs : List Byte), r.idle .enc → r.idle .dec →
    ∃ text, laneMessages .enc [] (run r (encMessage bs)).beats = [(text, .ok)] ∧
      laneMessages .dec [] (run (run r (encMessage bs)).regs (decMessage text)).beats = [(bs, .ok)])

/-- R141: a text that decodes is the encoding of its bytes, and the only one: `ENCODE` and `DECODE` are inverse
bijections between all byte lists and the texts that decode. -/
def Obligations.EveryDecodableTextIsCanonical : Prop :=
  ∀ bs cs : List Byte, decodeText cs = .ok bs ↔ encodeBytes bs = cs

/-- R138: the length law, its first values, and its consequences. -/
def Obligations.LengthLaw : Prop :=
  (∀ bs : List Byte, (encodeBytes bs).length = 3 * (bs.length / 2) + 2 * (bs.length % 2) ∧
    (encodeBytes bs).length = (3 * bs.length + 1) / 2 ∧ (encodeBytes bs).length % 3 ≠ 1) ∧
  ((List.range 8).map fun n => (encodeBytes (List.replicate n 0)).length) = [0, 2, 3, 5, 6, 8, 9, 11] ∧
  (∀ cs bs : List Byte, decodeText cs = .ok bs → bs.length = 2 * (cs.length / 3) + (cs.length % 3) / 2)

/-- R139: empty input. -/
def Obligations.EmptyMessages : Prop :=
  encodeBytes [] = [] ∧ decodeText [] = .ok [] ∧
  (∀ (s : State) (rsv : Byte), s.regs.idle .enc →
    exec (.ence rsv) s = .next { s with oq := s.oq ++ [.endOf .enc .ok] }) ∧
  (∀ (s : State) (rsv : Byte), s.regs.idle .dec →
    exec (.dece rsv) s = .next { s with oq := s.oq ++ [.endOf .dec .ok] })

/-- R142: concatenation, for first parts of whole groups; and that neither law holds for other lengths in
general. -/
def Obligations.ConcatenationOfWholeGroups : Prop :=
  (∀ xs ys : List Byte, xs.length % 2 = 0 → encodeBytes (xs ++ ys) = encodeBytes xs ++ encodeBytes ys) ∧
  (∀ xs ys : List Byte, xs.length % 3 = 0 →
    decodeText (xs ++ ys) =
      match decodeText xs with
      | .err k => .err k
      | .ok bs => (decodeText ys).after bs) ∧
  (∃ xs ys : List Byte, encodeBytes (xs ++ ys) ≠ encodeBytes xs ++ encodeBytes ys) ∧
  (∃ (xs ys bs : List Byte), decodeText xs = .ok bs ∧ decodeText (xs ++ ys) ≠ (decodeText ys).after bs)

/-- R68, R113, R123: every command, from every state of the registers, emits only beats that can occur, and the
words of those are among the 306 of R68. -/
def Obligations.OnlyTheListedBeatsOccur : Prop :=
  (∀ (i : Instr) (r : Regs), ∀ b ∈ (commandEffect i r).beats, b.Legal) ∧
  (∀ b : Beat, b.Legal →
    (∃ i : Digit, b.word.toNat = (unlookup i).toNat) ∨ b.word = 0x400 ∨
    (0x800 ≤ b.word.toNat ∧ b.word.toNat ≤ 0x8FF) ∨
    b.word = 0xC00 ∨ b.word = 0xD00 ∨ b.word = 0xE00 ∨ b.word = 0xF00)

/-- R113, R123: how many data beats a message has: `3 * (n div 2) + 2 * (n mod 2)` for an encoder message of `n`
bytes, and `2 * (m div 3) + (m mod 3) div 2` for a decoder message of `m` characters that succeeds. -/
def Obligations.DataBeatsPerMessage : Prop :=
  (∀ (r : Regs) (bs : List Byte), r.idle .enc →
    ((run r (encMessage bs)).beats.filter fun b => !b.isEnd).length =
      3 * (bs.length / 2) + 2 * (bs.length % 2)) ∧
  (∀ (r : Regs) (cs bs : List Byte), r.idle .dec → decodeText cs = .ok bs →
    ((run r (decMessage cs)).beats.filter fun b => !b.isEnd).length =
      2 * (cs.length / 3) + (cs.length % 3) / 2)

/-! ### The clock, the ports and reset (30_encoding.md, 70_reset_and_hazards.md) -/

/-- R61: a step at whose edge a command is accepted runs exactly the decoded command, on the state the edge
itself leaves: the registers as before, the script advanced, the edge counted, no command held, and the oldest
pending beat gone to the host if it was delivered, the queue untouched if not. -/
def Obligations.StepRunsTheDecodedCommand : Prop :=
  ∀ (s : State) (p : PinsIn) (rest : List PinsIn), s.inputs = p :: rest → p.rst = false →
    p.cmdValid = true → s.cmdReady = true → (s.held = none ∨ s.held = some p.cmd) →
    ∃ t, step s = exec (decode p.cmd) t ∧
      t.regs = s.regs ∧ t.inputs = rest ∧ t.edge = s.edge + 1 ∧ t.held = none ∧ t.cmdWait = .since s.edge ∧
      (s.delivers p = true → ∃ b, s.oq = b :: t.oq ∧ t.delivered = s.delivered ++ [b]) ∧
      (s.delivers p = false → t.oq = s.oq ∧ t.delivered = s.delivered)

/-- The word the host places for the next step is the command that step runs, on unchanged registers and an
unchanged output stream (log entry 14: the model's own way of offering a command). -/
def Obligations.PlacedWordIsRunNext : Prop :=
  ∀ (s : State) (nbits w : Nat) (i : Instr), decodeTableWord nbits w = some i →
    ∃ t, t.regs = s.regs ∧ t.out = s.out ∧ t.inputs = s.inputs ∧ step (s.withFetchWord nbits w) = exec i t

/-- R51, R61, R69: an edge without reset. A command is accepted exactly when `cmd_valid` and `cmd_ready` are 1, and
then the registers change by its effect and `OUT` grows by its beats; otherwise neither changes. A beat is
delivered exactly when `out_valid` and `out_ready` are 1; it is the oldest pending one, and its word is the value of
`out` at the edge. The host's duty to hold begins at an edge that offers a command in vain, for that command, and
is over after every other edge. -/
def Obligations.EdgeAcceptsAndDelivers : Prop :=
  ∀ (s t : State) (p : PinsIn) (rest : List PinsIn), s.inputs = p :: rest → p.rst = false → step s = .next t →
    (p.cmdValid = true → s.cmdReady = true →
      t.regs = (execWord s.regs p.cmd).regs ∧ t.out = s.out ++ (execWord s.regs p.cmd).beats) ∧
    (p.cmdValid = false ∨ s.cmdReady = false → t.regs = s.regs ∧ t.out = s.out) ∧
    (s.outValid = true → p.outReady = true →
      ∃ b, s.oq.head? = some b ∧ s.outWord = b.word ∧ t.delivered = s.delivered ++ [b]) ∧
    (s.outValid = false ∨ p.outReady = false → t.delivered = s.delivered) ∧
    (p.cmdValid = true → s.cmdReady = false → t.held = some p.cmd) ∧
    (p.cmdValid = false ∨ s.cmdReady = true → t.held = none)

/-- R51, R61, R69, R131: the ports refine the command stream. After any number of edges without reset, whatever
the timing and the handshakes did, the registers and `OUT` are those `RUN` gives for the accepted commands in
order, and what has been delivered is a prefix of `OUT` that only grows. -/
def Obligations.PortsRefineTheCommandStream : Prop :=
  ∀ (n : Nat) (s t : State), s.noReset n → steps n s = .next t →
    t.regs = (runWords s.regs (acceptedIn n s)).regs ∧
    t.out = s.out ++ (runWords s.regs (acceptedIn n s)).beats ∧
    s.delivered <+: t.delivered ∧ t.delivered <+: t.out

/-- R180: a complete run, one in which no message is left open and no beat pending, ends with both lanes idle, and
the stream delivered is exactly `OUT` of its commands. -/
def Obligations.CompleteRunDeliversItsOutput : Prop :=
  ∀ (n : Nat) (s t : State), s.regs.idle .enc → s.regs.idle .dec → s.out = [] → s.noReset n →
    steps n s = .next t → complete ((acceptedIn n s).map decode) t →
    t.regs.idle .enc ∧ t.regs.idle .dec ∧ t.delivered = (runWords s.regs (acceptedIn n s)).beats

/-- R35, R170, R172: a reset edge, from every state: the step completes, `EPH`, `DPH` and `DERR` are 0, the pending
beats are gone, no command is accepted and no beat delivered, both lanes are idle, and the block behaves exactly
as after the first reset. -/
def Obligations.ResetEdgeGivesTheResetState : Prop :=
  ∀ (s : State) (p : PinsIn) (rest : List PinsIn), s.inputs = p :: rest → p.rst = true →
    ∃ t, step s = .next t ∧
      t.regs.eph = .zero ∧ t.regs.dph = .zero ∧ t.regs.derr = .ok ∧ t.oq = [] ∧ t.delivered = [] ∧
      t.inputs = rest ∧ t.held = none ∧ s.acceptedWord p = none ∧
      (∀ is : List Instr, (run t.regs is).beats = (run Regs.reset is).beats)

/-- R34, R35: the state after reset: `EPH = 0`, `DPH = 0`, `DERR = 0`, nothing pending, both lanes idle. -/
def Obligations.ResetStateIsIdle : Prop :=
  State.reset.regs.eph = .zero ∧ State.reset.regs.dph = .zero ∧ State.reset.regs.derr = .ok ∧
  State.reset.oq = [] ∧ State.reset.out = [] ∧ (∀ l : Lane, State.reset.regs.idle l) ∧ Sys2Proof.core.reset = State.reset

/-- R171: while `rst = 1` both handshake outputs are 0; in the cycle after it `out_valid` is 0; and if `rst` then stays
0, `cmd_ready` rises after a finite number of cycles, the same for every host, whatever it drives in them as long as
it holds a command it offers, and no command is accepted before. -/
def Obligations.HandshakeOutputsAroundReset : Prop :=
  (∀ s : State, (s.pinsOut true).cmdReady = false ∧ (s.pinsOut true).outValid = false) ∧
  (∀ (s t : State) (p : PinsIn) (rest : List PinsIn), s.inputs = p :: rest → p.rst = true → step s = .next t →
    (∀ rst : Bool, (t.pinsOut rst).outValid = false) ∧
    (∃ n, ∀ ps : List PinsIn, ps.length = n → (∀ q ∈ ps, q.rst = false) → offersHeld ps →
      ∃ u, steps n { t with inputs := ps } = .next u ∧ (u.pinsOut false).cmdReady = true ∧
        acceptedIn n { t with inputs := ps } = []))

/-- R29, R30, R68: the invariant of reachable states is kept by every step, from every state that has it, by every
command, edge and reset. -/
def Obligations.StepKeepsTheInvariant : Prop :=
  ∀ s t : State, s.Inv → step s = .next t → t.Inv

/-- The state after reset has the invariant of reachable states (R29, R34). -/
def Obligations.ResetStateHasTheInvariant : Prop := State.reset.Inv

/-- R28, R29: what every command sequence from reset leaves in the decoder's registers, whatever it was. -/
def Obligations.ReachableDecoderRegisters : Prop :=
  ∀ is : List Instr,
    ((run Regs.reset is).regs.derr = .ok ∨ (run Regs.reset is).regs.derr = .fault .invalidChar ∨
      (run Regs.reset is).regs.derr = .fault .overflow) ∧
    ((run Regs.reset is).regs.dph ≠ .zero → (run Regs.reset is).regs.dv0.toNat ≤ 44) ∧
    ((run Regs.reset is).regs.dph = .two → (run Regs.reset is).regs.dv1.toNat ≤ 44)

/-- R69: while a beat is offered and not taken, the block goes on offering the same word; and what it offers is
the word of the oldest pending beat. -/
def Obligations.OfferedBeatIsHeld : Prop :=
  (∀ s : State, s.outValid = true → ∃ b, s.oq.head? = some b ∧ s.outWord = b.word) ∧
  (∀ (s t : State) (p : PinsIn) (rest : List PinsIn), s.inputs = p :: rest → p.rst = false → p.outReady = false →
    s.outValid = true → step s = .next t → t.outValid = true ∧ t.outWord = s.outWord ∧ t.oq.head? = s.oq.head?)

/-- R178: a consumer that stops taking beats stalls the command port. Once the queue has no room for a command's
beats, then for as long as `out_ready` stays 0 no command is accepted, no state of the lanes changes and no beat is
lost. (That room means room for three beats is the model's reading, log entry 5.) -/
def Obligations.FullQueueStallsTheCommandPort : Prop :=
  ∀ (s : State) (p : PinsIn) (n : Nat), p.rst = false → p.outReady = false →
    Config.oqDepth < s.oq.length + 3 → s.holdKept p →
    ∃ t, steps n (s.driving p n) = .next t ∧ t.regs = s.regs ∧ t.oq = s.oq ∧ t.delivered = s.delivered ∧
      t.cmdReady = false ∧ acceptedIn n (s.driving p n) = []

/-- R182: a command the host goes on offering, while it takes every beat offered, is accepted after finitely many
edges. -/
def Obligations.OfferedCommandIsAccepted : Prop :=
  ∀ (s : State) (w : CmdWord), (s.held = none ∨ s.held = some w) →
    ∃ n t, steps n (s.driving ⟨false, true, w, true⟩ n) = .next t ∧
      acceptedIn n (s.driving ⟨false, true, w, true⟩ n) = [] ∧
      t.acceptedWord ⟨false, true, w, true⟩ = some w

/-- R182: a pending beat is offered after finitely many edges, to every host that goes on driving the same pins and
keeps its duty to hold: one that does nothing, one that offers a command, one that is ready for the beat. Until then
no pending beat is delivered. -/
def Obligations.PendingBeatIsOffered : Prop :=
  ∀ (s : State) (p : PinsIn), s.oq ≠ [] → p.rst = false → s.holdKept p →
    ∃ n t, steps n (s.driving p n) = .next t ∧ t.outValid = true ∧ s.oq <+: t.oq ∧ t.delivered = s.delivered

/-- R61, U11: the one stop of the machine. An edge at which the host withdraws or changes a command it must hold is
refused by name (the model's way to stop, log entry 8). Every other step answers a next state, so none of them is
refused and none faults (R130, R160): an edge with nothing held or with the held command offered again, a reset
edge, at which no duty is checked (log entry 23), and a step with no edge to come, whatever is held (log entry 1). -/
def Obligations.OnlyABrokenHoldIsRefused : Prop :=
  (∀ (s : State) (p : PinsIn) (rest : List PinsIn) (w : CmdWord), s.inputs = p :: rest → p.rst = false →
    s.held = some w → (p.cmdValid = false ∨ p.cmd ≠ w) → step s = .refused (.stalledCommandChanged w)) ∧
  (∀ (s : State), s.held = none → ∃ t, step s = .next t) ∧
  (∀ (s : State) (p : PinsIn) (rest : List PinsIn), s.inputs = p :: rest →
    (p.rst = true ∨ (s.held = some p.cmd ∧ p.cmdValid = true)) → ∃ t, step s = .next t) ∧
  (∀ (s : State), s.inputs = [] → step s = .next s) ∧
  (∀ (s : State) (r : Refusal), step s = .refused r → ∃ p rest w, s.inputs = p :: rest ∧ p.rst = false ∧
    s.held = some w ∧ (p.cmdValid = false ∨ p.cmd ≠ w) ∧ r = .stalledCommandChanged w)

/-! ### Assembler syntax -/

/-- R71, R72: the assembler reads back every line the printer writes, as the canonical command, which for a
well-formed command is the command itself; and the pseudo-commands `ENC` and `DEC` on numbers printed in decimal
expand to one whole message. -/
def Obligations.AssemblerReadsWhatIsPrinted : Prop :=
  (∀ i : Instr, Asm.assembleLine (Asm.render i) = some [i.canonical]) ∧
  (∀ i : Instr, i.wellFormed = true → Asm.assembleLine (Asm.render i) = some [i]) ∧
  (∀ xs : List Byte,
    Asm.commandsOf "ENC".toList (xs.map fun x => .word (Nat.toDigits 10 x.toNat)) = some (encMessage xs) ∧
    Asm.commandsOf "DEC".toList (xs.map fun x => .word (Nat.toDigits 10 x.toNat)) = some (decMessage xs))
end

