-- ==== Sys2Proof/Laws/Arith.lean ====
section
/-! SUPPORT. The arithmetic of the extractor and the reconstructor as equations on naturals. -/

namespace Sys2Proof.Machine

@[simp] theorem div45_quotient (n : Nat) : (div45 n).1 = n / 45 := rfl
@[simp] theorem div45_remainder (n : Nat) : ((div45 n).2 : Nat) = n % 45 := rfl

@[simp] theorem dig3_low (x : BitVec 16) : ((dig3 x).1 : Nat) = x.toNat % 45 := rfl
@[simp] theorem dig3_mid (x : BitVec 16) : ((dig3 x).2.1 : Nat) = x.toNat / 45 % 45 := rfl
@[simp] theorem dig3_high (x : BitVec 16) : ((dig3 x).2.2 : Nat) = x.toNat / 45 / 45 := rfl
@[simp] theorem dig2_low (u : Byte) : ((dig2 u).1 : Nat) = u.toNat % 45 := rfl
@[simp] theorem dig2_high (u : Byte) : ((dig2 u).2 : Nat) = u.toNat / 45 := rfl

@[simp] theorem digitVal_toNat (v : Digit) : (digitVal v).toNat = v.val := by
  simp only [digitVal, BitVec.toNat_ofNat]
  omega

@[simp] theorem pairValue_toNat (hi lo : Byte) : (pairValue hi lo).toNat = hi.toNat * 256 + lo.toNat := by
  have h1 := hi.isLt
  have h2 := lo.isLt
  simp only [pairValue, BitVec.toNat_ofNat]
  omega

/-- A triple's value over digits (R98). -/
theorem val3_digits (c0 c1 c2 : Digit) :
    val3 (digitVal c0) (digitVal c1) (digitVal c2) = c2.val * 2025 + c1.val * 45 + c0.val := by
  simp [val3]

/-- A final pair's value over digits (R99). -/
theorem val2_digits (c0 c1 : Digit) : val2 (digitVal c0) (digitVal c1) = c1.val * 45 + c0.val := by
  simp [val2]

theorem ovf3_iff (x : Nat) : ovf3 x = true ↔ 65535 < x := by simp [ovf3]
theorem ovf2_iff (x : Nat) : ovf2 x = true ↔ 255 < x := by simp [ovf2]

/-- The bytes of a 16-bit value (R102). -/
theorem splitBytes_toNat (x : Nat) (h : x < 65536) :
    (splitBytes x).1.toNat = x / 256 ∧ (splitBytes x).2.toNat = x % 256 := by
  simp only [splitBytes, BitVec.toNat_ofNat]
  omega

end Sys2Proof.Machine
end

