-- ==== Sys2Proof/Laws/State.lean ====
section
/-! SUPPORT. One lemma per field and update of the state, so that no proof unfolds a record update. -/

namespace Sys2Proof.Machine

/-! ### `commit` -/

section Commit
variable (s : State) (e : Effect)

@[simp] theorem State.commit_regs : (s.commit e).regs = e.regs := rfl
@[simp] theorem State.commit_oq : (s.commit e).oq = s.oq ++ e.beats := rfl
@[simp] theorem State.commit_cmdWait : (s.commit e).cmdWait = s.cmdWait := rfl
@[simp] theorem State.commit_outWait : (s.commit e).outWait = s.outWait := rfl
@[simp] theorem State.commit_held : (s.commit e).held = s.held := rfl
@[simp] theorem State.commit_edge : (s.commit e).edge = s.edge := rfl
@[simp] theorem State.commit_inputs : (s.commit e).inputs = s.inputs := rfl
@[simp] theorem State.commit_delivered : (s.commit e).delivered = s.delivered := rfl
@[simp] theorem State.commit_out : (s.commit e).out = s.out ++ e.beats := by
  simp [State.out]

end Commit

/-! ### `offer` -/

section Offer
variable (s : State) (p : PinsIn) (a : Bool)

@[simp] theorem State.offer_regs : (s.offer p a).regs = s.regs := rfl
@[simp] theorem State.offer_oq : (s.offer p a).oq = s.oq := rfl
@[simp] theorem State.offer_cmdWait :
    (s.offer p a).cmdWait = if a then .since s.edge else s.cmdWait := rfl
@[simp] theorem State.offer_outWait : (s.offer p a).outWait = s.outWait := rfl
@[simp] theorem State.offer_held :
    (s.offer p a).held = if p.cmdValid && !a then some p.cmd else none := rfl
@[simp] theorem State.offer_edge : (s.offer p a).edge = s.edge + 1 := rfl
@[simp] theorem State.offer_inputs : (s.offer p a).inputs = s.inputs := rfl
@[simp] theorem State.offer_delivered : (s.offer p a).delivered = s.delivered := rfl

end Offer

/-! ### `deliver` -/

section Deliver
variable (s : State) (p : PinsIn)

/-- All an edge's delivery can do: nothing but restart a wait that counts for no beat, or move the oldest
pending beat to the host. -/
theorem State.deliver_cases :
    (s.delivers p = false ∧ s.deliver p = { s with outWait := (s.deliver p).outWait }) ∨
    (∃ b rest, s.delivers p = true ∧ s.oq = b :: rest ∧
      s.deliver p = { s with oq := rest, delivered := s.delivered ++ [b], outWait := .since s.edge }) := by
  rcases hd : s.delivers p with _ | _ <;> rcases ho : s.oq with _ | ⟨b, rest⟩
  · left; simp [State.deliver, hd, ho]
  · left; exact ⟨rfl, by simp only [State.deliver, hd, ho]; cases s; simp_all⟩
  · simp [State.delivers, State.outValid, ho] at hd
  · right; exact ⟨b, rest, by simp [State.deliver, hd, ho]⟩

@[simp] theorem State.deliver_regs : (s.deliver p).regs = s.regs := by
  rcases s.deliver_cases p with ⟨-, h⟩ | ⟨_, _, -, -, h⟩ <;> rw [h]
@[simp] theorem State.deliver_cmdWait : (s.deliver p).cmdWait = s.cmdWait := by
  rcases s.deliver_cases p with ⟨-, h⟩ | ⟨_, _, -, -, h⟩ <;> rw [h]
@[simp] theorem State.deliver_held : (s.deliver p).held = s.held := by
  rcases s.deliver_cases p with ⟨-, h⟩ | ⟨_, _, -, -, h⟩ <;> rw [h]
@[simp] theorem State.deliver_edge : (s.deliver p).edge = s.edge := by
  rcases s.deliver_cases p with ⟨-, h⟩ | ⟨_, _, -, -, h⟩ <;> rw [h]
@[simp] theorem State.deliver_inputs : (s.deliver p).inputs = s.inputs := by
  rcases s.deliver_cases p with ⟨-, h⟩ | ⟨_, _, -, -, h⟩ <;> rw [h]
/-- A delivery moves a beat and loses none (R69). -/
@[simp] theorem State.deliver_out : (s.deliver p).out = s.out := by
  rcases s.deliver_cases p with ⟨-, h⟩ | ⟨_, _, -, ho, h⟩
  · rw [h]; rfl
  · rw [h]; simp [State.out, ho]

theorem State.deliver_oq_length : (s.deliver p).oq.length ≤ s.oq.length := by
  rcases s.deliver_cases p with ⟨-, h⟩ | ⟨_, _, -, ho, h⟩
  · rw [h]
  · rw [h]; simp [ho]

end Deliver

/-! ### `pastEdge` -/

section PastEdge
variable (s : State) (p : PinsIn)

@[simp] theorem State.pastEdge_regs : (s.pastEdge p).regs = s.regs := by simp [State.pastEdge]
@[simp] theorem State.pastEdge_edge : (s.pastEdge p).edge = s.edge + 1 := by simp [State.pastEdge]
@[simp] theorem State.pastEdge_inputs : (s.pastEdge p).inputs = s.inputs := by simp [State.pastEdge]
@[simp] theorem State.pastEdge_oq : (s.pastEdge p).oq = (s.deliver p).oq := rfl
@[simp] theorem State.pastEdge_delivered : (s.pastEdge p).delivered = (s.deliver p).delivered := rfl
@[simp] theorem State.pastEdge_outWait : (s.pastEdge p).outWait = (s.deliver p).outWait := rfl
@[simp] theorem State.pastEdge_cmdWait :
    (s.pastEdge p).cmdWait = if s.accepts p then .since s.edge else s.cmdWait := by
  simp [State.pastEdge]
@[simp] theorem State.pastEdge_held :
    (s.pastEdge p).held = if p.cmdValid && !s.accepts p then some p.cmd else none := rfl
@[simp] theorem State.pastEdge_out : (s.pastEdge p).out = s.out := s.deliver_out p

end PastEdge

/-! ### `resetEdge` -/

section ResetEdge
variable (s : State)

@[simp] theorem State.resetEdge_regs : s.resetEdge.regs = Regs.afterReset s.edge := rfl
@[simp] theorem State.resetEdge_oq : s.resetEdge.oq = [] := rfl
@[simp] theorem State.resetEdge_delivered : s.resetEdge.delivered = [] := rfl
@[simp] theorem State.resetEdge_out : s.resetEdge.out = [] := rfl
@[simp] theorem State.resetEdge_held : s.resetEdge.held = none := rfl
@[simp] theorem State.resetEdge_edge : s.resetEdge.edge = s.edge + 1 := rfl
@[simp] theorem State.resetEdge_inputs : s.resetEdge.inputs = s.inputs := rfl
@[simp] theorem Regs.afterReset_eph (n : Nat) : (Regs.afterReset n).eph = .zero := rfl
@[simp] theorem Regs.afterReset_dph (n : Nat) : (Regs.afterReset n).dph = .zero := rfl
@[simp] theorem Regs.afterReset_derr (n : Nat) : (Regs.afterReset n).derr = .ok := rfl

end ResetEdge

/-! ### What the pins read depends on -/

@[simp] theorem State.outValid_nil (s : State) (h : s.oq = []) : s.outValid = false := by
  simp [State.outValid, h]

/-- What is on offer is the oldest pending beat (R69). -/
theorem State.outWord_of_outValid {s : State} (h : s.outValid = true) :
    ∃ b rest, s.oq = b :: rest ∧ s.outWord = b.word := by
  rcases ho : s.oq with _ | ⟨b, rest⟩
  · simp [ho] at h
  · exact ⟨b, rest, rfl, by simp [State.outWord, h, ho]⟩

/-- A host that keeps its duty breaks no hold (R61). -/
theorem State.brokenHold_of_holdKept {s : State} {p : PinsIn} (h : s.holdKept p) : s.brokenHold p = none := by
  rcases h with h | ⟨h, hv⟩ <;> simp [State.brokenHold, h]
  simp [hv]

/-- The script of inputs is seen by no output (R69, log entry 5). -/
@[simp] theorem State.cmdReady_inputs (s : State) (l : List PinsIn) :
    ({ s with inputs := l } : State).cmdReady = s.cmdReady := rfl
@[simp] theorem State.outValid_inputs (s : State) (l : List PinsIn) :
    ({ s with inputs := l } : State).outValid = s.outValid := rfl
@[simp] theorem State.accepts_inputs (s : State) (l : List PinsIn) (p : PinsIn) :
    ({ s with inputs := l } : State).accepts p = s.accepts p := rfl
@[simp] theorem State.brokenHold_inputs (s : State) (l : List PinsIn) (p : PinsIn) :
    ({ s with inputs := l } : State).brokenHold p = s.brokenHold p := rfl

/-- The script of inputs passes through a delivery. -/
theorem State.deliver_with_inputs (s : State) (l : List PinsIn) (p : PinsIn) :
    ({ s with inputs := l } : State).deliver p = { s.deliver p with inputs := l } := by
  obtain ⟨regs, oq, cmdWait, outWait, held, edge, inputs, delivered⟩ := s
  have hd : (State.mk regs oq cmdWait outWait held edge l delivered).delivers p =
    (State.mk regs oq cmdWait outWait held edge inputs delivered).delivers p := rfl
  unfold State.deliver
  rw [hd]
  rcases (State.mk regs oq cmdWait outWait held edge inputs delivered).delivers p with _ | _ <;>
    rcases oq with _ | ⟨_, _⟩ <;> rfl

/-- The script of inputs passes through an edge. -/
theorem State.pastEdge_with_inputs (s : State) (l : List PinsIn) (p : PinsIn) :
    ({ s with inputs := l } : State).pastEdge p = { s.pastEdge p with inputs := l } := by
  simp only [State.pastEdge, State.deliver_with_inputs]
  rfl

/-! ### Room and waits -/

/-- There is room for a command exactly when three more beats fit (R30, R178). -/
theorem hasRoom_iff (oq : List Beat) : hasRoom oq = true ↔ oq.length + 3 ≤ Config.oqDepth := by
  unfold hasRoom
  exact decide_eq_true_iff

/-- An empty queue always has room for a command (R30). -/
@[simp] theorem hasRoom_nil : hasRoom [] = true := by
  simp [hasRoom_iff, Config.oqDepth, Config.maxBeats]

/-- Every wait ends, and stays over (R171, R182). -/
theorem Wait.ends (c : Nat → Nat) (w : Wait) (e : Nat) : ∃ k, ∀ m, k ≤ m → w.done c (e + m) = true := by
  rcases w with _ | t
  · exact ⟨0, fun _ _ => rfl⟩
  · exact ⟨t + c t + 1, fun m hm => by simp only [Wait.done, decide_eq_true_eq]; omega⟩

/-- A wait that is over stays over. -/
theorem Wait.done_of_le {c : Nat → Nat} {w : Wait} {e e' : Nat} (h : e ≤ e') (hd : w.done c e = true) :
    w.done c e' = true := by
  rcases w with _ | t
  · rfl
  · simp only [Wait.done, decide_eq_true_eq] at hd ⊢
    omega

end Sys2Proof.Machine
end

