-- ==== Sys2Proof/Laws/Ops.lean ====
section
/-! SUPPORT. One lemma per shared operation and per meaning that says all it can do. -/

namespace Sys2Proof.Machine

/-! ### Shared operations -/

@[simp] theorem quiet_regs (r : Regs) : (quiet r).regs = r := rfl
@[simp] theorem quiet_beats (r : Regs) : (quiet r).beats = [] := rfl

@[simp] theorem raiseFault_of_ok (k : FaultKind) (r : Regs) (h : r.derr = .ok) :
    raiseFault k r = quiet { r with derr := .fault k } := by
  simp [raiseFault, h]

@[simp] theorem raiseFault_of_fault (k k' : FaultKind) (r : Regs) (h : r.derr = .fault k') :
    raiseFault k r = quiet r := by
  simp [raiseFault, h]

/-- Taking a fault emits nothing (R15, R157). -/
@[simp] theorem raiseFault_beats (k : FaultKind) (r : Regs) : (raiseFault k r).beats = [] := by
  rcases h : r.derr with _ | _ <;> simp [h]

@[simp] theorem endDecoder_regs (st : Status) (bs : List Byte) (r : Regs) :
    (endDecoder st bs r).regs = { r with dph := .zero, derr := .ok } := rfl
@[simp] theorem endDecoder_beats (st : Status) (bs : List Byte) (r : Regs) :
    (endDecoder st bs r).beats = dataBeats .dec bs ++ [.endOf .dec st] := rfl
@[simp] theorem endEncoder_regs (bs : List Byte) (r : Regs) :
    (endEncoder bs r).regs = { r with eph := .zero } := rfl
@[simp] theorem endEncoder_beats (bs : List Byte) (r : Regs) :
    (endEncoder bs r).beats = dataBeats .enc bs ++ [.endOf .enc .ok] := rfl

@[simp] theorem dataBeats_nil (l : Lane) : dataBeats l [] = [] := rfl
@[simp] theorem dataBeats_cons (l : Lane) (b : Byte) (bs : List Byte) :
    dataBeats l (b :: bs) = .data l b :: dataBeats l bs := rfl

/-! ### The effects, by the state before (the rows of R112 and R122) -/

theorem encbEffect_zero (d : Byte) (r : Regs) (h : r.eph = .zero) :
    encbEffect d r = ⟨{ r with ehi := d, eph := .one }, []⟩ := by
  simp [encbEffect, h, quiet]

theorem encbEffect_one (d : Byte) (r : Regs) (h : r.eph = .one) :
    encbEffect d r = ⟨{ r with eph := .zero }, dataBeats .enc
      [unlookup (dig3 (pairValue r.ehi d)).1, unlookup (dig3 (pairValue r.ehi d)).2.1,
        unlookup (dig3 (pairValue r.ehi d)).2.2]⟩ := by
  simp [encbEffect, h]

theorem enceEffect_zero (r : Regs) (h : r.eph = .zero) : enceEffect r = endEncoder [] r := by
  simp [enceEffect, h]

theorem enceEffect_one (r : Regs) (h : r.eph = .one) :
    enceEffect r = endEncoder [unlookup (dig2 r.ehi).1, unlookup (dig2 r.ehi).2] r := by
  simp [enceEffect, h]

theorem deccEffect_fault (c : Byte) (r : Regs) (k : FaultKind) (h : r.derr = .fault k) :
    deccEffect c r = quiet r := by
  simp [deccEffect, h]

theorem deccEffect_notFound (c : Byte) (r : Regs) (h : r.derr = .ok) (hc : lookup c = none) :
    deccEffect c r = quiet { r with derr := .fault .invalidChar } := by
  simp [deccEffect, h, hc]

theorem deccEffect_zero (c : Byte) (v : Digit) (r : Regs) (h : r.derr = .ok) (hc : lookup c = some v)
    (hp : r.dph = .zero) : deccEffect c r = quiet { r with dv0 := digitVal v, dph := .one } := by
  simp [deccEffect, h, hc, hp]

theorem deccEffect_one (c : Byte) (v : Digit) (r : Regs) (h : r.derr = .ok) (hc : lookup c = some v)
    (hp : r.dph = .one) : deccEffect c r = quiet { r with dv1 := digitVal v, dph := .two } := by
  simp [deccEffect, h, hc, hp]

theorem deccEffect_two (c : Byte) (v : Digit) (r : Regs) (h : r.derr = .ok) (hc : lookup c = some v)
    (hp : r.dph = .two) : deccEffect c r =
      if ovf3 (val3 r.dv0 r.dv1 (digitVal v)) then quiet { r with derr := .fault .overflow }
      else ⟨{ r with dph := .zero }, dataBeats .dec
        [(splitBytes (val3 r.dv0 r.dv1 (digitVal v))).1, (splitBytes (val3 r.dv0 r.dv1 (digitVal v))).2]⟩ := by
  simp [deccEffect, h, hc, hp]

theorem deceEffect_fault (r : Regs) (k : FaultKind) (h : r.derr = .fault k) :
    deceEffect r = endDecoder (.fault k) [] r := by
  simp [deceEffect, h]

theorem deceEffect_zero (r : Regs) (h : r.derr = .ok) (hp : r.dph = .zero) :
    deceEffect r = endDecoder .ok [] r := by
  simp [deceEffect, h, hp]

theorem deceEffect_one (r : Regs) (h : r.derr = .ok) (hp : r.dph = .one) :
    deceEffect r = endDecoder (.fault .dangling) [] r := by
  simp [deceEffect, h, hp]

theorem deceEffect_two (r : Regs) (h : r.derr = .ok) (hp : r.dph = .two) :
    deceEffect r = if ovf2 (val2 r.dv0 r.dv1) then endDecoder (.fault .overflow) [] r
      else endDecoder .ok [BitVec.ofNat 8 (val2 r.dv0 r.dv1)] r := by
  simp [deceEffect, h, hp]

/-! ### The effects, all cases at once -/

theorem EncPhase.cases (p : EncPhase) : p = .zero ∨ p = .one := by cases p <;> simp
theorem DecPhase.cases (p : DecPhase) : p = .zero ∨ p = .one ∨ p = .two := by cases p <;> simp
theorem Status.cases (s : Status) : s = .ok ∨ ∃ k, s = .fault k := by cases s <;> simp

/-- All `ENCB` can do (R112). -/
theorem encbEffect_cases (d : Byte) (r : Regs) :
    (r.eph = .zero ∧ encbEffect d r = ⟨{ r with ehi := d, eph := .one }, []⟩) ∨
    (r.eph = .one ∧ encbEffect d r = ⟨{ r with eph := .zero }, dataBeats .enc
      [unlookup (dig3 (pairValue r.ehi d)).1, unlookup (dig3 (pairValue r.ehi d)).2.1,
        unlookup (dig3 (pairValue r.ehi d)).2.2]⟩) := by
  rcases EncPhase.cases r.eph with h | h
  · exact .inl ⟨h, encbEffect_zero d r h⟩
  · exact .inr ⟨h, encbEffect_one d r h⟩

/-- All `ENCE` can do (R112). -/
theorem enceEffect_cases (r : Regs) :
    (r.eph = .zero ∧ enceEffect r = endEncoder [] r) ∨
    (r.eph = .one ∧ enceEffect r = endEncoder [unlookup (dig2 r.ehi).1, unlookup (dig2 r.ehi).2] r) := by
  rcases EncPhase.cases r.eph with h | h
  · exact .inl ⟨h, enceEffect_zero r h⟩
  · exact .inr ⟨h, enceEffect_one r h⟩

/-- All `DECC` can do (R122). -/
theorem deccEffect_cases (c : Byte) (r : Regs) :
    (∃ k, r.derr = .fault k ∧ deccEffect c r = ⟨r, []⟩) ∨
    (r.derr = .ok ∧ lookup c = none ∧ deccEffect c r = ⟨{ r with derr := .fault .invalidChar }, []⟩) ∨
    (∃ v, r.derr = .ok ∧ lookup c = some v ∧ r.dph = .zero ∧
      deccEffect c r = ⟨{ r with dv0 := digitVal v, dph := .one }, []⟩) ∨
    (∃ v, r.derr = .ok ∧ lookup c = some v ∧ r.dph = .one ∧
      deccEffect c r = ⟨{ r with dv1 := digitVal v, dph := .two }, []⟩) ∨
    (∃ v, r.derr = .ok ∧ lookup c = some v ∧ r.dph = .two ∧ 65535 < val3 r.dv0 r.dv1 (digitVal v) ∧
      deccEffect c r = ⟨{ r with derr := .fault .overflow }, []⟩) ∨
    (∃ v, r.derr = .ok ∧ lookup c = some v ∧ r.dph = .two ∧ val3 r.dv0 r.dv1 (digitVal v) ≤ 65535 ∧
      deccEffect c r = ⟨{ r with dph := .zero }, dataBeats .dec
        [(splitBytes (val3 r.dv0 r.dv1 (digitVal v))).1,
          (splitBytes (val3 r.dv0 r.dv1 (digitVal v))).2]⟩) := by
  rcases Status.cases r.derr with h | ⟨k, h⟩
  · rcases hc : lookup c with _ | v
    · exact .inr (.inl ⟨h, rfl, deccEffect_notFound c r h hc⟩)
    · rcases DecPhase.cases r.dph with hp | hp | hp
      · exact .inr (.inr (.inl ⟨v, h, rfl, hp, deccEffect_zero c v r h hc hp⟩))
      · exact .inr (.inr (.inr (.inl ⟨v, h, rfl, hp, deccEffect_one c v r h hc hp⟩)))
      · have e := deccEffect_two c v r h hc hp
        by_cases ho : 65535 < val3 r.dv0 r.dv1 (digitVal v)
        · rw [if_pos (by simpa [ovf3] using ho)] at e
          exact .inr (.inr (.inr (.inr (.inl ⟨v, h, rfl, hp, ho, e⟩))))
        · rw [if_neg (by simpa [ovf3] using ho)] at e
          exact .inr (.inr (.inr (.inr (.inr ⟨v, h, rfl, hp, Nat.not_lt.mp ho, e⟩))))
  · exact .inl ⟨k, h, deccEffect_fault c r k h⟩

/-- All `DECE` can do (R122): it ends the message with one of these statuses and symbols. -/
theorem deceEffect_cases (r : Regs) : ∃ st symbols, deceEffect r = endDecoder st symbols r ∧
    ((∃ k, r.derr = .fault k ∧ st = .fault k ∧ symbols = []) ∨
     (r.derr = .ok ∧ r.dph = .zero ∧ st = .ok ∧ symbols = []) ∨
     (r.derr = .ok ∧ r.dph = .one ∧ st = .fault .dangling ∧ symbols = []) ∨
     (r.derr = .ok ∧ r.dph = .two ∧ 255 < val2 r.dv0 r.dv1 ∧ st = .fault .overflow ∧ symbols = []) ∨
     (r.derr = .ok ∧ r.dph = .two ∧ val2 r.dv0 r.dv1 ≤ 255 ∧ st = .ok ∧
       symbols = [BitVec.ofNat 8 (val2 r.dv0 r.dv1)])) := by
  rcases Status.cases r.derr with h | ⟨k, h⟩
  · rcases DecPhase.cases r.dph with hp | hp | hp
    · exact ⟨_, _, deceEffect_zero r h hp, .inr (.inl ⟨h, hp, rfl, rfl⟩)⟩
    · exact ⟨_, _, deceEffect_one r h hp, .inr (.inr (.inl ⟨h, hp, rfl, rfl⟩))⟩
    · have e := deceEffect_two r h hp
      by_cases ho : 255 < val2 r.dv0 r.dv1
      · rw [if_pos (by simpa [ovf2] using ho)] at e
        exact ⟨_, _, e, .inr (.inr (.inr (.inl ⟨h, hp, ho, rfl, rfl⟩)))⟩
      · rw [if_neg (by simpa [ovf2] using ho)] at e
        exact ⟨_, _, e, .inr (.inr (.inr (.inr ⟨h, hp, Nat.not_lt.mp ho, rfl, rfl⟩)))⟩
  · exact ⟨_, _, deceEffect_fault r k h, .inl ⟨k, h, rfl, rfl⟩⟩

/-! ### `exec` and `step` -/

/-- A command does exactly its effect, and always completes (R130). -/
theorem exec_eq_commit (i : Instr) (s : State) : exec i s = .next (s.commit (commandEffect i s.regs)) := by
  cases i <;> rfl

/-- All a step can do when it answers a next state: nothing, for want of an edge; a reset edge; an edge with
no command; an edge with one. -/
theorem step_cases {s t : State} (h : step s = .next t) :
    (s.inputs = [] ∧ t = s) ∨
    ∃ p rest, s.inputs = p :: rest ∧
      ((p.rst = true ∧ t = ({ s with inputs := rest } : State).resetEdge) ∨
       (p.rst = false ∧ s.brokenHold p = none ∧ s.accepts p = false ∧
          t = ({ s with inputs := rest } : State).pastEdge p) ∨
       (p.rst = false ∧ s.brokenHold p = none ∧ s.accepts p = true ∧
          t = (({ s with inputs := rest } : State).pastEdge p).commit
            (commandEffect (decode p.cmd) s.regs))) := by
  rcases hi : s.inputs with _ | ⟨p, rest⟩
  · left; simpa [step, hi, eq_comm] using h
  · right
    refine ⟨p, rest, rfl, ?_⟩
    rcases hr : p.rst with _ | _
    · rcases hb : s.brokenHold p with _ | w
      · rcases ha : s.accepts p with _ | _ <;>
          simp_all [step, clockEdge, exec_eq_commit]
      · simp [step, clockEdge, hi, hr, hb] at h
    · left; simpa [step, clockEdge, hi, hr, eq_comm] using h

/-- An edge without reset at which the host keeps its duty always completes, with or without a command. -/
theorem step_of_holdKept {s : State} {p : PinsIn} {rest : List PinsIn} (hi : s.inputs = p :: rest)
    (hr : p.rst = false) (hh : s.holdKept p) :
    step s = .next (if s.accepts p then
      (({ s with inputs := rest } : State).pastEdge p).commit (commandEffect (decode p.cmd) s.regs)
      else ({ s with inputs := rest } : State).pastEdge p) := by
  have hb := State.brokenHold_of_holdKept hh
  rcases ha : s.accepts p with _ | _ <;> simp [step, hi, clockEdge, hr, hb, ha, exec_eq_commit]

/-- No step faults (R130, R160). -/
theorem step_never_faults (s : State) (f : Fault) : step s ≠ .fault f := nomatch f

/-- The run of a concatenation (R131). -/
theorem run_append (r : Regs) (as bs : List Instr) :
    run r (as ++ bs) =
      ⟨(run (run r as).regs bs).regs, (run r as).beats ++ (run (run r as).regs bs).beats⟩ := by
  induction as generalizing r with
  | nil => simp [run]
  | cons i as ih => simp [run, ih]

/-- Steps after steps. -/
theorem steps_add {m : Nat} {s t : State} (n : Nat) (h : steps m s = .next t) : steps (m + n) s = steps n t := by
  induction m generalizing s with
  | zero => cases h; rw [Nat.zero_add]
  | succ m ih =>
    rw [Nat.succ_add]
    rcases hs : step s with u | f | r <;> simp only [steps, hs] at h ⊢
    · exact ih h
    · cases h
    · cases h

/-- The commands accepted in steps after steps (R61). -/
theorem acceptedIn_add {m : Nat} {s t : State} (n : Nat) (h : steps m s = .next t) :
    acceptedIn (m + n) s = acceptedIn m s ++ acceptedIn n t := by
  induction m generalizing s with
  | zero => cases h; rw [Nat.zero_add]; rfl
  | succ m ih =>
    rw [Nat.succ_add]
    rcases hs : step s with u | f | r <;> simp only [steps, hs] at h
    · rcases hi : s.inputs with _ | ⟨p, rest⟩ <;> simp [acceptedIn, hs, hi, ih h]
    · cases h
    · cases h

end Sys2Proof.Machine
end

