-- ==== Sys2Proof/Laws/PerInstr.lean ====
section
/-! SUPPORT. Statements made per instruction: one family, one lemma per constructor. -/

namespace Sys2Proof.Laws.EncodesItsRow

/-- The word of a command matches the row of the opcode table that bears its mnemonic (R62, R73). -/
def Statement (i : Instr) : Prop :=
  ∃ row ∈ opcodeTable, row.mnemonic = i.mnemonic ∧ row.accepts (encode i) = true

theorem encb (d : Byte) : Statement (.encb d) :=
  ⟨⟨"ENCB", 0x000, 0x300⟩, by simp [opcodeTable], rfl, by revert d; decide⟩

theorem ence (reserved : Byte) : Statement (.ence reserved) :=
  ⟨⟨"ENCE", 0x100, 0x300⟩, by simp [opcodeTable], rfl, by revert reserved; decide⟩

theorem decc (c : Byte) : Statement (.decc c) :=
  ⟨⟨"DECC", 0x200, 0x300⟩, by simp [opcodeTable], rfl, by revert c; decide⟩

theorem dece (reserved : Byte) : Statement (.dece reserved) :=
  ⟨⟨"DECE", 0x300, 0x300⟩, by simp [opcodeTable], rfl, by revert reserved; decide⟩

end Sys2Proof.Laws.EncodesItsRow
end

