-- ==== Sys2Proof/Tests/Slice0.lean ====
section
/-! SUPPORT. Tests of the model against the spec's own vectors (95_test_vectors.md, rows named in the
comments), and for every statement with hypotheses a witness that meets them. -/

namespace Sys2Proof.Tests

open Sys2Proof Sys2Proof.Machine

/-! ### Small states -/

/-- The registers `1 hi | 0 - - 0`: the encoder holds a byte. -/
def holding (hi : Byte) : Regs := { Regs.reset with eph := .one, ehi := hi }

/-- The registers `0 - | p v0 v1 st`. -/
def decoderAt (p : DecPhase) (v0 v1 : Val6) (st : Status) : Regs :=
  { Regs.reset with dph := p, dv0 := v0, dv1 := v1, derr := st }

/-- The state after reset with these registers. -/
def stateAt (r : Regs) : State := { State.reset with regs := r }

/-- The registers after a command from given registers, and the words of the beats it emits. -/
def after (i : Instr) (r : Regs) : Option (Regs × List BeatWord) :=
  match exec i (stateAt r) with
  | .next t => some (t.regs, t.oq.map Beat.word)
  | .fault _ => none
  | .refused _ => none

/-! ### Decoding: words written out from R62 -/

-- `op = 00`, `data = 0100 0001`
theorem test_decode_encb : decode 0b00_01000001 = .encb 0x41 := by decide
-- `op = 01`, `data = 0111 1111` (row E23)
theorem test_decode_ence : decode 0b01_01111111 = .ence 0x7F := by decide
-- `op = 10`, `data = 0011 1000` (row D3)
theorem test_decode_decc : decode 0b10_00111000 = .decc 0x38 := by decide
-- `op = 11`, `data = 1010 1011` (row D33)
theorem test_decode_dece : decode 0b11_10101011 = .dece 0xAB := by decide
-- a command is exactly ten bits (R66)
theorem test_decode_rejects_eleven_bits : decodeNumber 0x400 = .rejected .widerThanPort := by decide
theorem test_decode_table_word : decodeTableWord 16 0x3FF = some (.dece 0xFF) := by decide

/-! ### WellFormed: ill-formed terms the check refuses -/

theorem test_wellformed_refuses_ence : (Instr.ence 0x7F).wellFormed = false := by decide
theorem test_wellformed_refuses_dece : (Instr.dece 0xAB).wellFormed = false := by decide
theorem test_wellformed_accepts :
    [Instr.encb 0xFF, .ence 0, .decc 0x80, .dece 0].all Instr.wellFormed = true := by decide

/-! ### Single commands -/

-- row E14: the first byte of a pair overwrites whatever `EHI` held
theorem test_encb_first : after (.encb 0x00) Regs.reset = some (holding 0x00, []) := by decide
-- row E2 (source S1): "AB" gives "BB8"
theorem test_encb_second : after (.encb 0x42) (holding 0x41) =
    some ({ holding 0x41 with eph := .zero }, [0x042, 0x042, 0x038]) := by decide
-- row E17 (source S2, S4): a trailing 0x21 gives "X0" and the end beat
theorem test_ence_trailing : after (.ence 0) (holding 0x21) =
    some ({ holding 0x21 with eph := .zero }, [0x058, 0x030, 0x400]) := by decide
-- row E24: a reserved field that is not zero, in an idle lane
theorem test_ence_reserved : after (.ence 0xFF) Regs.reset = some (Regs.reset, [0x400]) := by decide
-- row D5: "FGW" is 65535, the greatest in range
theorem test_decc_greatest : after (.decc 0x57) (decoderAt .two 15 16 .ok) =
    some (decoderAt .zero 15 16 .ok, [0x8FF, 0x8FF]) := by decide
-- row D6: "GGW" is 65536, the least overflow: no beat, the phase stays
theorem test_decc_overflow : after (.decc 0x57) (decoderAt .two 16 16 .ok) =
    some (decoderAt .two 16 16 (.fault .overflow), []) := by decide
-- row D25: "U5" is 255
theorem test_dece_pair : after (.dece 0) (decoderAt .two 30 5 .ok) =
    some (decoderAt .zero 30 5 .ok, [0x8FF, 0xC00]) := by decide
-- row D30: InvalidChar recorded at phase 1 is reported, not Dangling
theorem test_dece_reports : after (.dece 0) (decoderAt .one 10 63 (.fault .invalidChar)) =
    some (decoderAt .zero 10 63 .ok, [0xD00]) := by decide

/-! ### The alphabet, the extractor, the reconstructor -/

-- section 2: ends of the runs, the gap at 0x2C, no folding, no 7-bit aliasing
theorem test_lookup_corners : [0x20, 0x2A, 0x2C, 0x39, 0x3A, 0x3B, 0x40, 0x41, 0x5A, 0x5B, 0x61, 0xB0].map lookup =
    [some 36, some 39, none, some 9, some 44, none, none, some 10, some 35, none, none, none] := by decide
-- section 3: 64799 is the last with `a = 31`, 64800 the first with `a = 32`
theorem test_dig3_corners : dig3 64799 = (44, 44, 31) ∧ dig3 64800 = (0, 0, 32) ∧ dig3 18533 = (38, 6, 9) := by
  decide
-- section 3: 0xE0 and 0xE1
theorem test_dig2_corners : dig2 0xE0 = (44, 4) ∧ dig2 0xE1 = (0, 5) := by decide
-- section 3: the triples and pairs around the two limits
theorem test_val_corners : val3 15 16 32 = 65535 ∧ val3 16 16 32 = 65536 ∧ val2 30 5 = 255 ∧ val2 31 5 = 256 ∧
    ovf3 65535 = false ∧ ovf3 65536 = true ∧ ovf2 255 = false ∧ ovf2 256 = true := by decide

/-! ### Messages (96_message_vectors.md, section 1 of 95_test_vectors.md) -/

-- row ME11 and source S1 backwards; sources S10, S11, S12
theorem test_messages : encodeBytes [0x41, 0x42, 0x43] = [0x42, 0x42, 0x38, 0x4D, 0x31] ∧
    decodeText [0x42, 0x42, 0x38] = .ok [0x41, 0x42] ∧ decodeText [0x41] = .err .dangling ∧
    decodeText [0x3A, 0x3A, 0x3A] = .err .overflow ∧ decodeText [0x5A, 0x5A] = .err .overflow := by decide

/-! ### The assembler (R71, R72) -/

theorem test_assembler_program :
    Asm.assemble "ENC \"AB\" ; one message\nDECC ';'\nENCB 0xfF\n\nDECE".toList =
      some [.encb 0x41, .encb 0x42, .ence 0, .decc 0x3B, .encb 0xFF, .dece 0] := by decide
theorem test_assembler_refuses : Asm.assembleLine "ENCB 256".toList = none ∧
    Asm.assembleLine "ENCB 'A'".toList = none ∧ Asm.assembleLine "ENCE 0".toList = none := by decide

/-! ### The first step after reset -/

theorem test_first_step_after_reset : step (State.reset.withFetchWord 16 0x300) =
    .next { State.reset with oq := [.endOf .dec .ok], edge := 2, cmdWait := .since 1, outWait := .since 1 } := rfl

/-! ### Witnesses: encoding and arithmetic -/

theorem test_witness_OpcodeMapIsFullyPopulated :
    ((0x041 : CmdWord).getLsbD 9 = false ∧ (0x041 : CmdWord).getLsbD 8 = false) ∧
    ((0x17F : CmdWord).getLsbD 9 = false ∧ (0x17F : CmdWord).getLsbD 8 = true) ∧
    ((0x238 : CmdWord).getLsbD 9 = true ∧ (0x238 : CmdWord).getLsbD 8 = false) ∧
    ((0x3AB : CmdWord).getLsbD 9 = true ∧ (0x3AB : CmdWord).getLsbD 8 = true) := by decide
theorem test_witness_ReservedFieldIsIgnored :
    (∃ t, exec (.ence 0x7F) (stateAt (holding 0xFF)) = .next t) ∧
    (∃ t, exec (.dece 0xAB) (stateAt (decoderAt .two 35 35 .ok)) = .next t) := ⟨⟨_, rfl⟩, ⟨_, rfl⟩⟩
theorem test_witness_BeatWordDeterminesBeat :
    (Beat.data .dec 0x41).word = (Beat.data .dec 0x41).word := rfl
theorem test_witness_LookupsAreInverse : lookup 0x42 = some 11 ∧ unlookup 11 = unlookup 11 := by decide
theorem test_witness_LookupClosedForms : (9 : Digit).val ≤ 9 ∧ (10 ≤ (10 : Digit).val ∧ (35 : Digit).val ≤ 35) ∧
    (0x30 ≤ (0x30 : Byte).toNat ∧ (0x39 : Byte).toNat ≤ 0x39) ∧
    (0x41 ≤ (0x41 : Byte).toNat ∧ (0x5A : Byte).toNat ≤ 0x5A) ∧
    ((0x3B : Byte).toNat < 0x41 ∧ 0x39 < (0x3B : Byte).toNat ∧
      (0x3B : Byte) ∉ [(0x20 : Byte), 0x24, 0x25, 0x2A, 0x2B, 0x2D, 0x2E, 0x2F, 0x3A]) := by decide
theorem test_witness_CharacterRomImage : lookup 0x5B = none := by decide
theorem test_witness_TripleDigitsArePositional : 15 ≤ 44 ∧ 16 ≤ 44 ∧
    32 * 2025 + 16 * 45 + 15 = (65535 : BitVec 16).toNat ∧ 64800 ≤ (64800 : BitVec 16).toNat := by decide
theorem test_witness_PairDigitsArePositional : 30 ≤ 44 ∧ 5 * 45 + 30 = (255 : Byte).toNat := by decide
theorem test_witness_ExtractorAndReconstructorAreInverse :
    val3 (digitVal 15) (digitVal 16) (digitVal 32) ≤ 65535 ∧ val2 (digitVal 30) (digitVal 5) ≤ 255 := by decide

/-! ### Witnesses: commands and faults -/

theorem test_witness_EncoderTransitionTable : (stateAt Regs.reset).regs.eph = .zero ∧
    (stateAt (holding 0x41)).regs.eph = .one ∧ (stateAt (holding 0x41)).regs.ehi = 0x41 := by decide
/-- One state for each row of R122, at the limits 65535 and 65536, 255 and 256. -/
theorem test_witness_DecoderTransitionTable :
    (stateAt (decoderAt .one 10 63 (.fault .invalidChar))).regs.derr = .fault .invalidChar ∧
    ((stateAt Regs.reset).regs.derr = .ok ∧ lookup 0x09 = none) ∧
    ((stateAt Regs.reset).regs.dph = .zero ∧ lookup 0x20 = some 36) ∧
    ((stateAt (decoderAt .one 11 63 .ok)).regs.dph = .one ∧ lookup 0x42 = some 11) ∧
    ((stateAt (decoderAt .two 15 16 .ok)).regs.dph = .two ∧ lookup 0x57 = some 32 ∧
      val3 15 16 (digitVal 32) = 65535) ∧
    ((stateAt (decoderAt .two 16 16 .ok)).regs.derr = .ok ∧ val3 16 16 (digitVal 32) = 65536) ∧
    ((stateAt (decoderAt .two 30 5 .ok)).regs.derr = .ok ∧ val2 30 5 = 255) ∧
    ((stateAt (decoderAt .two 31 5 .ok)).regs.dph = .two ∧ val2 31 5 = 256) := by decide
theorem test_witness_EncoderEmitsThePositionalDigits : (stateAt (holding 0xFD)).regs.eph = .one := by decide
theorem test_witness_EncoderCommandsFrame :
    ((Instr.encb 0x42).lane = .enc ∧ (stateAt (holding 0x41)).regs.eph = .one ∧
      ∃ t, exec (.encb 0x42) (stateAt (holding 0x41)) = .next t) ∧
    ((Instr.ence 0).isEnd = true ∧ ∃ t, exec (.ence 0) (stateAt Regs.reset) = .next t) :=
  ⟨⟨rfl, rfl, _, rfl⟩, rfl, _, rfl⟩
theorem test_witness_DecoderCommandsFrame :
    ((Instr.decc 0x42).lane = .dec ∧ (Instr.decc 0x42).isEnd = false ∧
      (stateAt (decoderAt .two 0 0 .ok)).regs.dph ≠ .zero ∧ (stateAt (decoderAt .two 0 0 .ok)).regs.dph ≠ .one ∧
      ∃ t, exec (.decc 0x42) (stateAt (decoderAt .two 0 0 .ok)) = .next t) ∧
    ((Instr.dece 0).isEnd = true ∧ ∃ t, exec (.dece 0) (stateAt Regs.reset) = .next t) :=
  ⟨⟨rfl, rfl, by decide, by decide, _, rfl⟩, rfl, _, rfl⟩
theorem test_witness_FaultsAreRaisedExactly : (stateAt (decoderAt .two 44 44 .ok)).regs.derr = .ok := by decide
theorem test_witness_FaultEntryChangesOnlyTheFaultRegister :
    ∃ t, exec (.decc 0x3A) (stateAt (decoderAt .two 44 44 .ok)) = .next t ∧ t.regs.derr ≠ .ok :=
  ⟨_, rfl, by decide⟩
theorem test_witness_RecordedFaultIsReportedOnce :
    (stateAt (decoderAt .two 44 44 (.fault .overflow))).regs.derr = .fault .overflow := by decide
theorem test_witness_NothingAfterAnUnrecognizedCharacterMatters :
    lookup 0xF0 = none ∧ lookup 0x09 = none ∧ 0x80 ≤ (0x80 : Byte).toNat := by decide

/-! ### Witnesses: streams and messages -/

/-- Two register files that differ in every register that holds nothing at phase 0. -/
theorem test_witness_DeadRegistersAreUnobservable :
    Regs.LiveEq Regs.reset { Regs.reset with ehi := 0, dv0 := 0, dv1 := 0 } :=
  ⟨rfl, by decide, rfl, fun _ => rfl, by decide, by decide⟩
theorem test_witness_IdleLaneBehavesAsFromReset :
    Regs.idle .enc (decoderAt .two 1 2 .ok) ∧ Regs.idle .dec (holding 7) ∧
    (∃ t, exec (.ence 0) (stateAt (holding 7)) = .next t) ∧
    (∃ t, exec (.dece 0) (stateAt (decoderAt .two 1 2 .ok)) = .next t) := ⟨rfl, ⟨rfl, rfl⟩, ⟨_, rfl⟩, ⟨_, rfl⟩⟩
theorem test_witness_LanesDoNotInterfere :
    ofLane .enc [.encb 1, .decc 0x41, .ence 0] = ofLane .enc [.dece 0, .encb 1, .ence 0] := by decide
theorem test_witness_EncoderMessageComputesEncode : Regs.reset.idle .enc ∧
    ofLane .enc [.decc 0x41, .encb 1, .dece 0, .encb 2, .ence 0x7F] = [1, 2].map Instr.encb ++ [.ence 0x7F] :=
  ⟨rfl, by decide⟩
theorem test_witness_DecoderMessageComputesDecode : Regs.reset.idle .dec ∧
    ofLane .dec [.decc 0x42, .encb 1, .decc 0x7A, .ence 0, .dece 0xAB] = [0x42, 0x7A].map Instr.decc ++ [.dece 0xAB] :=
  ⟨⟨rfl, rfl⟩, by decide⟩
theorem test_witness_DecodingTheEncodingGivesItBack : Regs.reset.idle .enc ∧ Regs.reset.idle .dec := ⟨rfl, rfl, rfl⟩
theorem test_witness_LengthLaw : decodeText [0x42, 0x42, 0x38] = .ok [0x41, 0x42] := by decide
theorem test_witness_EmptyMessages :
    (stateAt (decoderAt .one 1 2 .ok)).regs.idle .enc ∧ (stateAt (holding 1)).regs.idle .dec := ⟨rfl, rfl, rfl⟩
theorem test_witness_ConcatenationOfWholeGroups : [(1 : Byte), 2].length % 2 = 0 ∧ [(1 : Byte), 2, 3].length % 3 = 0 := by
  decide
theorem test_witness_OnlyTheListedBeatsOccur :
    (Beat.endOf .enc .ok ∈ (commandEffect (.ence 0) Regs.reset).beats) ∧ (Beat.endOf .enc .ok).Legal := ⟨by decide, rfl⟩
theorem test_witness_DataBeatsPerMessage :
    Regs.reset.idle .enc ∧ Regs.reset.idle .dec ∧ decodeText [0x30, 0x30] = .ok [0] := ⟨rfl, ⟨rfl, rfl⟩, by decide⟩

/-! ### Witnesses: clock, ports and reset -/

/-- Pins of a host that asserts reset. -/
def resetPins : PinsIn := ⟨true, true, 0x041, true⟩
/-- Pins of a host that offers no command and takes a beat. -/
def takePins : PinsIn := ⟨false, false, 0, true⟩
/-- Pins of a host that offers no command and takes no beat. -/
def idlePins : PinsIn := ⟨false, false, 0, false⟩
/-- The state after reset, its stall over, with a host that drives the given pins. -/
def readyFor (ps : List PinsIn) : State := { State.reset with cmdWait := .over, inputs := ps }
/-- The same with one beat pending and on offer. -/
def offeringBeat (ps : List PinsIn) : State :=
  { State.reset with oq := [.endOf .enc .ok], outWait := .over, inputs := ps }

theorem test_ready (ps : List PinsIn) : (readyFor ps).cmdReady = true := by
  simp [State.cmdReady, readyFor, Wait.done, State.reset]
theorem test_accepts (w : CmdWord) (ps : List PinsIn) :
    step (readyFor (PinsIn.offering w :: ps)) = exec (decode w) ((readyFor ps).pastEdge (PinsIn.offering w)) := by
  simp [step, clockEdge, readyFor, PinsIn.offering, State.brokenHold, State.reset, State.accepts, State.cmdReady, Wait.done]

theorem test_witness_StepRunsTheDecodedCommand :
    (readyFor [PinsIn.offering 0x041]).inputs = [PinsIn.offering 0x041] ∧ (PinsIn.offering 0x041).rst = false ∧
    (PinsIn.offering 0x041).cmdValid = true ∧ (readyFor [PinsIn.offering 0x041]).cmdReady = true ∧
    (readyFor [PinsIn.offering 0x041]).held = none ∧
    (readyFor [PinsIn.offering 0x041]).delivers (PinsIn.offering 0x041) = false :=
  ⟨rfl, rfl, rfl, test_ready _, rfl, rfl⟩
/-- A beat can go at the very edge that accepts a command as soon as the queue is deeper than its least depth. -/
theorem test_witness_StepRunsTheDecodedCommand_delivering (h : 4 ≤ Config.oqDepth) :
    ({ offeringBeat [⟨false, true, 0x041, true⟩] with cmdWait := .over } : State).cmdReady = true ∧
    ({ offeringBeat [⟨false, true, 0x041, true⟩] with cmdWait := .over } : State).delivers
      ⟨false, true, 0x041, true⟩ = true := by
  refine ⟨?_, rfl⟩
  simp [State.cmdReady, Wait.done, hasRoom_iff, offeringBeat, h]
theorem test_witness_PlacedWordIsRunNext : decodeTableWord 16 0x238 = some (.decc 0x38) := by decide
/-- A full queue, whatever its depth, with a host that drives the given pins. -/
def fullQueue (held : Option CmdWord) (ps : List PinsIn) : State :=
  { State.reset with oq := List.replicate Config.oqDepth (.endOf .enc .ok), held := held, inputs := ps }

theorem test_full_queue_is_not_ready (h : Option CmdWord) (ps : List PinsIn) : (fullQueue h ps).cmdReady = false := by
  have : hasRoom (fullQueue h ps).oq = false := by rw [Bool.eq_false_iff, Ne, hasRoom_iff]; simp [fullQueue]
  simp [State.cmdReady, this]

/-- The first edge that offers a command in vain, and an edge that goes on offering it. -/
theorem test_witness_EdgeAcceptsAndDelivers_held :
    (PinsIn.offering 0x041).cmdValid = true ∧ (PinsIn.offering 0x041).rst = false ∧
    (fullQueue none [PinsIn.offering 0x041]).cmdReady = false ∧
    (∃ t, step (fullQueue none [PinsIn.offering 0x041]) = .next t) ∧
    (∃ t, step (fullQueue (some 0x041) [PinsIn.offering 0x041]) = .next t) := by
  exact ⟨rfl, rfl, test_full_queue_is_not_ready _ _, ⟨_, step_of_holdKept rfl rfl (.inl rfl)⟩,
    ⟨_, step_of_holdKept rfl rfl (.inr ⟨rfl, rfl⟩)⟩⟩
theorem test_witness_EdgeAcceptsAndDelivers :
    (∃ t, (readyFor [PinsIn.offering 0x041]).cmdReady = true ∧ step (readyFor [PinsIn.offering 0x041]) = .next t) ∧
    (∃ t, (offeringBeat [takePins]).outValid = true ∧ takePins.outReady = true ∧ takePins.cmdValid = false ∧
      step (offeringBeat [takePins]) = .next t) ∧
    (∃ t, idlePins.outReady = false ∧ step (offeringBeat [idlePins]) = .next t) :=
  ⟨⟨_, test_ready _, test_accepts _ _⟩, ⟨_, rfl, rfl, rfl, rfl⟩, ⟨_, rfl, rfl⟩⟩
theorem test_witness_PortsRefineTheCommandStream : (readyFor [PinsIn.offering 0x041]).noReset 1 ∧
    ∃ t, steps 1 (readyFor [PinsIn.offering 0x041]) = .next t := by
  refine ⟨by simp [State.noReset, readyFor, PinsIn.offering], ?_⟩
  simp only [steps, test_accepts]
  exact ⟨_, rfl⟩
theorem test_witness_ResetEdgeGivesTheResetState :
    (offeringBeat [resetPins]).inputs = [resetPins] ∧ resetPins.rst = true := ⟨rfl, rfl⟩
theorem test_witness_HandshakeOutputsAroundReset :
    (∃ t, resetPins.rst = true ∧ step (offeringBeat [resetPins]) = .next t) ∧
    (∀ n, (List.replicate n (PinsIn.offering 0x041)).length = n ∧
      (∀ q ∈ List.replicate n (PinsIn.offering 0x041), q.rst = false)) ∧
    offersHeld [idlePins, PinsIn.offering 0x041, PinsIn.offering 0x041] := by
  refine ⟨⟨_, rfl, rfl⟩, fun n => ⟨by simp, fun q h => ?_⟩, ⟨(nomatch ·), fun _ => ⟨rfl, rfl⟩, trivial⟩⟩
  rw [List.eq_of_mem_replicate h]
  rfl
/-- A host that does nothing but hold one command keeps its duty for any number of edges. -/
theorem test_witness_HandshakeOutputsAroundReset_held (n : Nat) :
    offersHeld (List.replicate n (PinsIn.offering 0x041)) := by
  induction n with
  | zero => trivial
  | succ n ih => rcases n with _ | n; trivial; exact ⟨fun _ => ⟨rfl, rfl⟩, ih⟩
theorem test_witness_StepKeepsTheInvariant : (readyFor [PinsIn.offering 0x041]).Inv ∧
    ∃ t, step (readyFor [PinsIn.offering 0x041]) = .next t :=
  ⟨⟨⟨by decide, fun h => absurd rfl h, (fun h => nomatch h)⟩, by simp [readyFor, State.reset], (fun _ h => nomatch h),
    (fun _ h => nomatch h)⟩, _, test_accepts _ _⟩
theorem test_witness_OfferedBeatIsHeld : ∃ t, idlePins.rst = false ∧ idlePins.outReady = false ∧
    (offeringBeat [idlePins]).outValid = true ∧ step (offeringBeat [idlePins]) = .next t := ⟨_, rfl, rfl, rfl, rfl⟩
/-- A full queue with a host that has offered nothing, and with one that must hold a command. -/
theorem test_witness_FullQueueStallsTheCommandPort :
    (∀ h, Config.oqDepth < (fullQueue h []).oq.length + 3) ∧ (fullQueue none []).holdKept idlePins ∧
    (fullQueue (some 0x041) []).holdKept (PinsIn.offering 0x041) ∧ (PinsIn.offering 0x041).outReady = false :=
  ⟨fun _ => by simp [fullQueue], .inl rfl, .inr ⟨rfl, rfl⟩, rfl⟩
theorem test_witness_OfferedCommandIsAccepted : (stateAt (holding 1)).held = none ∧
    ({ State.reset with held := some 0x041 } : State).held = some 0x041 := ⟨rfl, rfl⟩
/-- A pending beat with a host that does nothing, with one that must hold a command, and with one that offers one. -/
theorem test_witness_PendingBeatIsOffered : (offeringBeat []).oq ≠ [] ∧ (offeringBeat []).holdKept idlePins ∧
    ({ offeringBeat [] with held := some 0x041 } : State).holdKept (PinsIn.offering 0x041) ∧
    (offeringBeat []).holdKept (PinsIn.offering 0x041) ∧ (PinsIn.offering 0x041).rst = false :=
  ⟨by decide, .inl rfl, .inr ⟨rfl, rfl⟩, .inl rfl, rfl⟩
theorem test_witness_OnlyABrokenHoldIsRefused :
    step ({ State.reset with held := some 0x041, inputs := [idlePins] } : State) =
      .refused (.stalledCommandChanged 0x041) ∧
    step ({ State.reset with held := some 0x041, inputs := [PinsIn.offering 0x042] } : State) =
      .refused (.stalledCommandChanged 0x041) ∧
    (PinsIn.offering 0x041).cmdValid = true ∧ State.reset.held = none ∧ resetPins.rst = true ∧
    ({ State.reset with held := some 0x041 } : State).inputs = [] :=
  ⟨rfl, rfl, rfl, rfl, rfl, rfl⟩
theorem test_witness_AssemblerReadsWhatIsPrinted : (Instr.encb 0x41).wellFormed = true ∧ (Instr.dece 0).wellFormed = true := by
  decide

/-! ### A complete run with a message in it -/

/-- While the host does nothing a pending beat and its wait stay as they are. -/
theorem test_idle_edges (n : Nat) (ps : List PinsIn) (s : State) (hq : s.oq ≠ []) (hh : s.held = none) :
    ∃ t, steps n { s with inputs := List.replicate n idlePins ++ ps } = .next t ∧ t.regs = s.regs ∧ t.oq = s.oq ∧
      t.outWait = s.outWait ∧ t.edge = s.edge + n ∧ t.held = none ∧ t.inputs = ps ∧
      acceptedIn n { s with inputs := List.replicate n idlePins ++ ps } = [] := by
  induction n generalizing s with
  | zero => exact ⟨_, rfl, rfl, rfl, rfl, rfl, hh, rfl, rfl⟩
  | succ n ih =>
    have hd : s.deliver idlePins = s := by
      rcases h : s.oq with _ | ⟨b, q⟩
      · exact absurd h hq
      · simp [State.deliver, State.delivers, h, idlePins]
    have hs : step { s with inputs := List.replicate (n + 1) idlePins ++ ps } =
        .next { s.pastEdge idlePins with inputs := List.replicate n idlePins ++ ps } := by
      simp only [step, List.replicate_succ, List.cons_append, clockEdge, State.accepts_inputs,
        State.brokenHold_inputs, State.pastEdge_with_inputs]
      simp [idlePins, State.brokenHold, hh, State.accepts]
    obtain ⟨t, h1, h2, h3, h4, h5, h6, h7, h8⟩ := ih (s.pastEdge idlePins) (by simp [hd, hq]) rfl
    refine ⟨t, by simp only [steps, hs, h1], by simp [h2], by simp [h3, hd], by simp [h4, hd],
      by simp only [h5, State.pastEdge_edge]; omega, h6, h7, ?_⟩
    simp only [acceptedIn, hs, h8]
    rfl

/-- A whole run: an empty message is closed at the first edge, its end beat waits as long as it must, and is
taken at the last edge. -/
theorem test_witness_CompleteRunDeliversItsOutput : ∃ (n : Nat) (s t : State),
    s.regs.idle .enc ∧ s.regs.idle .dec ∧ s.out = [] ∧ s.noReset n ∧ steps n s = .next t ∧
    (acceptedIn n s).map decode = [.ence 0] ∧ complete ((acceptedIn n s).map decode) t := by
  let k := Config.outLatency 1
  let s := readyFor (PinsIn.offering 0x100 :: (List.replicate k idlePins ++ [takePins]))
  let u : State :=
    ⟨Regs.reset, [.endOf .enc .ok], .since 1, .since 1, none, 2, List.replicate k idlePins ++ [takePins], []⟩
  have h1 : steps 1 s = .next u := by
    simp only [steps, s, test_accepts]
    rfl
  have a1 : acceptedIn 1 s = [0x100] := by
    simp only [acceptedIn, s, test_accepts]
    simp [readyFor, State.acceptedWord, State.accepts, PinsIn.offering, State.cmdReady, Wait.done, State.reset]
    rfl
  obtain ⟨t, h2, t1, t2, t3, t4, t5, t6, a2⟩ := test_idle_edges k [takePins] u (by simp [u]) rfl
  have hv : t.outValid = true := by
    simp [State.outValid, t2, t3, t4, u, Wait.done, k]
  have hb : t.brokenHold takePins = none := by simp [State.brokenHold, t5]
  have h3 : steps 1 t = .next (({ t with inputs := [] } : State).pastEdge takePins) := by
    have hr : takePins.rst = false := rfl
    have hc : t.accepts takePins = false := rfl
    simp [steps, step, t6, clockEdge, hb, hr, hc]
  have a3 : acceptedIn 1 t = [] := by
    simp only [steps] at h3
    rcases hs : step t with _ | _ | _ <;> simp [acceptedIn, hs, t6, State.acceptedWord, State.accepts, takePins]
  have hk := steps_add 1 h2
  have hn := steps_add (k + 1) h1
  have ha := acceptedIn_add (k + 1) h1
  rw [acceptedIn_add 1 h2, a1, a2, a3] at ha
  refine ⟨1 + (k + 1), s, _, rfl, ⟨rfl, rfl⟩, rfl, ?_, hn.trans (hk.trans h3), ?_, ?_⟩
  · intro p hp
    have : p ∈ s.inputs := List.mem_of_mem_take hp
    simp only [s, readyFor, List.mem_cons, List.mem_append, List.mem_replicate, List.not_mem_nil, or_false] at this
    rcases this with rfl | ⟨-, rfl⟩ | rfl <;> rfl
  · rw [ha]; decide
  · rw [ha]
    refine ⟨by decide, by decide, ?_⟩
    simp only [State.pastEdge_with_inputs, State.pastEdge_oq]
    have hq : t.oq = [.endOf .enc .ok] := t2
    have hd : t.delivers takePins = true := by simp [State.delivers, hv, takePins]
    unfold State.deliver
    rw [hd, hq]

end Sys2Proof.Tests
end

section
/-! Proofs for the encoding family (30_encoding.md): the decoder by the bits of a word, the opcode table, the
END commands' effect on `DERR`, and the fields of a beat's word. -/

namespace Sys2Proof.Machine

/-! ### The decoder, by the two bits of the opcode -/

theorem decode_eq_encb {w : CmdWord} (h9 : w.getLsbD 9 = false) (h8 : w.getLsbD 8 = false) :
    decode w = .encb (w.extractLsb' 0 8) := by
  simp only [decode, h9, h8]

theorem decode_eq_ence {w : CmdWord} (h9 : w.getLsbD 9 = false) (h8 : w.getLsbD 8 = true) :
    decode w = .ence (w.extractLsb' 0 8) := by
  simp only [decode, h9, h8]

theorem decode_eq_decc {w : CmdWord} (h9 : w.getLsbD 9 = true) (h8 : w.getLsbD 8 = false) :
    decode w = .decc (w.extractLsb' 0 8) := by
  simp only [decode, h9, h8]

theorem decode_eq_dece {w : CmdWord} (h9 : w.getLsbD 9 = true) (h8 : w.getLsbD 8 = true) :
    decode w = .dece (w.extractLsb' 0 8) := by
  simp only [decode, h9, h8]

/-- Bits 9 and 8 alone choose the command (R62, R65). -/
theorem decode_cases (w : CmdWord) :
    (w.getLsbD 9 = false ∧ w.getLsbD 8 = false ∧ decode w = .encb (w.extractLsb' 0 8)) ∨
    (w.getLsbD 9 = false ∧ w.getLsbD 8 = true ∧ decode w = .ence (w.extractLsb' 0 8)) ∨
    (w.getLsbD 9 = true ∧ w.getLsbD 8 = false ∧ decode w = .decc (w.extractLsb' 0 8)) ∨
    (w.getLsbD 9 = true ∧ w.getLsbD 8 = true ∧ decode w = .dece (w.extractLsb' 0 8)) := by
  rcases h9 : w.getLsbD 9 with _ | _ <;> rcases h8 : w.getLsbD 8 with _ | _
  · exact .inl ⟨rfl, rfl, decode_eq_encb h9 h8⟩
  · exact .inr (.inl ⟨rfl, rfl, decode_eq_ence h9 h8⟩)
  · exact .inr (.inr (.inl ⟨rfl, rfl, decode_eq_decc h9 h8⟩))
  · exact .inr (.inr (.inr ⟨rfl, rfl, decode_eq_dece h9 h8⟩))

/-- Bit 9 of a word is the lane of its command (R62). -/
theorem decode_lane_eq_dec_iff (w : CmdWord) : (decode w).lane = .dec ↔ w.getLsbD 9 = true := by
  rcases decode_cases w with ⟨h9, -, h⟩ | ⟨h9, -, h⟩ | ⟨h9, -, h⟩ | ⟨h9, -, h⟩ <;>
    rw [h, h9] <;> simp [Instr.lane]

/-- Bit 8 of a word says whether its command is an END command (R62). -/
theorem decode_isEnd (w : CmdWord) : (decode w).isEnd = w.getLsbD 8 := by
  rcases decode_cases w with ⟨-, h8, h⟩ | ⟨-, h8, h⟩ | ⟨-, h8, h⟩ | ⟨-, h8, h⟩ <;>
    rw [h, h8] <;> rfl

/-- Two neighbouring bits of a word, read one by one. -/
theorem extractLsb'_two {n : Nat} (w : BitVec n) (i : Nat) :
    w.extractLsb' i 2 = BitVec.ofBool (w.getLsbD (i + 1)) ++ BitVec.ofBool (w.getLsbD i) := by
  ext j hj
  rw [BitVec.getElem_extractLsb', BitVec.getElem_append]
  obtain rfl | rfl : j = 0 ∨ j = 1 := by omega
  · simp
  · simp

/-- The opcode of the decoded command is the field `cmd[9:8]` (R62). -/
theorem decode_op (w : CmdWord) : (decode w).op = w.extractLsb' 8 2 := by
  rcases decode_cases w with ⟨h9, h8, h⟩ | ⟨h9, h8, h⟩ | ⟨h9, h8, h⟩ | ⟨h9, h8, h⟩ <;>
    rw [extractLsb'_two, h9, h8, h] <;> rfl

/-! ### The opcode table -/

/-- The table's mask keeps the opcode of a word and clears its operand (R73). -/
theorem and_opMask (w : CmdWord) : w &&& 0x300 = (decode w).op ++ 0#8 := by
  have hw : w.extractLsb' 8 2 ++ w.extractLsb' 0 8 = w := BitVec.extractLsb'_append_extractLsb'
  calc w &&& 0x300
      = (w.extractLsb' 8 2 ++ w.extractLsb' 0 8) &&& (BitVec.allOnes 2 ++ 0#8) := by rw [hw]; rfl
    _ = (decode w).op ++ 0#8 := by
      rw [BitVec.and_append, BitVec.and_allOnes, BitVec.and_zero, decode_op]

/-- Exactly one row of the opcode table matches a word: the one of the decoded command (R73). -/
theorem filter_accepts_opcodeTable (w : CmdWord) :
    opcodeTable.filter (fun row => row.accepts w) = [⟨(decode w).mnemonic, (decode w).op ++ 0#8, 0x300⟩] := by
  simp only [opcodeTable, OpRow.accepts, List.filter_cons, List.filter_nil, and_opMask]
  cases decode w <;> simp [Instr.op, Instr.mnemonic]

/-- Settles O3, through the one row that matches a word. -/
theorem opcodeMapIsFullyPopulated : Obligations.OpcodeMapIsFullyPopulated := by
  intro w
  refine ⟨decode_lane_eq_dec_iff w, decode_isEnd w, ?_, ?_, ?_, ?_, ?_⟩
  · intro h9 h8; rw [decode_eq_encb h9 h8]; rfl
  · intro h9 h8; rw [decode_eq_ence h9 h8]; rfl
  · intro h9 h8; rw [decode_eq_decc h9 h8]; rfl
  · intro h9 h8; rw [decode_eq_dece h9 h8]; rfl
  · rw [filter_accepts_opcodeTable]; rfl

/-! ### The reserved field of the END commands -/

theorem op_eq_ence_iff (i : Instr) : i.op = 0b01#2 ↔ ∃ r, i = .ence r := by
  cases i <;> simp [Instr.op]

theorem op_eq_dece_iff (i : Instr) : i.op = 0b11#2 ↔ ∃ r, i = .dece r := by
  cases i <;> simp [Instr.op]

/-- Closing the encoder message leaves `DERR` alone (R111). -/
@[simp] theorem enceEffect_derr (r : Regs) : (enceEffect r).regs.derr = r.derr := by
  rcases enceEffect_cases r with ⟨-, h⟩ | ⟨-, h⟩ <;> rw [h, endEncoder_regs]

/-- Closing the decoder message leaves no fault recorded (R121, R159). -/
@[simp] theorem deceEffect_derr (r : Regs) : (deceEffect r).regs.derr = .ok := by
  obtain ⟨st, symbols, h, -⟩ := deceEffect_cases r
  rw [h, endDecoder_regs]

/-- `ENCE` does the same whatever its reserved field (R64). -/
theorem exec_ence (reserved : Byte) (s : State) :
    exec (.ence reserved) s = .next (s.commit (enceEffect s.regs)) :=
  exec_eq_commit (.ence reserved) s

/-- `DECE` does the same whatever its reserved field (R64). -/
theorem exec_dece (reserved : Byte) (s : State) :
    exec (.dece reserved) s = .next (s.commit (deceEffect s.regs)) :=
  exec_eq_commit (.dece reserved) s

/-- Settles O4: neither meaning mentions the reserved field, and the opcode alone chooses the command. -/
theorem reservedFieldIsIgnored : Obligations.ReservedFieldIsIgnored := by
  refine ⟨fun r s => ⟨?_, ?_⟩, fun r s t h => ?_, fun r s t h => ?_, fun w => ?_, fun w => ?_⟩
  · rw [exec_ence, exec_ence]
  · rw [exec_dece, exec_dece]
  · rw [exec_ence] at h
    cases h
    exact enceEffect_derr s.regs
  · rw [exec_dece] at h
    cases h
    exact deceEffect_derr s.regs
  · rw [← decode_op]
    exact op_eq_ence_iff (decode w)
  · rw [← decode_op]
    exact op_eq_dece_iff (decode w)

/-! ### The fields of a beat's word -/

theorem laneBit_eq_ite (l : Lane) : laneBit l = if l = .enc then 0 else 1 := by
  cases l <;> rfl

/-- The four fields of a 12-bit word put together as `{lane, end, status, data}` (R67). -/
theorem extractLsb'_beatFields (l e : BitVec 1) (st : BitVec 2) (d : Byte) :
    (l ++ (e ++ (st ++ d)) : BeatWord).extractLsb' 11 1 = l ∧
    (l ++ (e ++ (st ++ d)) : BeatWord).extractLsb' 10 1 = e ∧
    (l ++ (e ++ (st ++ d)) : BeatWord).extractLsb' 8 2 = st ∧
    (l ++ (e ++ (st ++ d)) : BeatWord).extractLsb' 0 8 = d := by
  refine ⟨BitVec.extractLsb'_append_eq_left, ?_, ?_, ?_⟩
  · rw [BitVec.extractLsb'_append_eq_of_add_le (by decide)]
    exact BitVec.extractLsb'_append_eq_left
  · rw [BitVec.extractLsb'_append_eq_of_add_le (by decide), BitVec.extractLsb'_append_eq_of_add_le (by decide)]
    exact BitVec.extractLsb'_append_eq_left
  · rw [BitVec.extractLsb'_append_eq_of_add_le (by decide), BitVec.extractLsb'_append_eq_of_add_le (by decide)]
    exact BitVec.extractLsb'_append_eq_right

/-- The number of an appended word, as a sum. -/
theorem toNat_append_eq_add {m n : Nat} (x : BitVec m) (y : BitVec n) :
    (x ++ y).toNat = x.toNat * 2 ^ n + y.toNat := by
  rw [BitVec.toNat_append, ← Nat.shiftLeft_add_eq_or_of_lt y.isLt, Nat.shiftLeft_eq]

/-- The number of a word `{lane, end, status, data}` (R67). -/
theorem beatFields_toNat (l e : BitVec 1) (st : BitVec 2) (d : Byte) :
    (l ++ (e ++ (st ++ d)) : BeatWord).toNat =
      l.toNat * 2 ^ 11 + (e.toNat * 2 ^ 10 + (st.toNat * 2 ^ 8 + d.toNat)) := by
  rw [← toNat_append_eq_add st d, ← toNat_append_eq_add e, ← toNat_append_eq_add l]

/-- The number of a data beat's word: the lane's base plus the symbol (R67). -/
theorem dataWord_toNat (l : Lane) (d : Byte) :
    (Beat.data l d).word.toNat = (laneBit l).toNat * 0x800 + d.toNat :=
  (beatFields_toNat (laneBit l) 0 0 d).trans (by simp)

/-- Settles O5, field by field. -/
theorem beatWordLayout : Obligations.BeatWordLayout := by
  refine ⟨fun l d => ?_, fun l s => ?_, fun d => ?_, by decide⟩
  · rw [← laneBit_eq_ite]
    exact extractLsb'_beatFields (laneBit l) 0 0 d
  · rw [← laneBit_eq_ite]
    exact extractLsb'_beatFields (laneBit l) 1 s.code 0
  · exact ⟨dataWord_toNat .enc d, dataWord_toNat .dec d⟩

end Sys2Proof.Machine
end

section
/-! Proofs for the alphabet family (40_alphabet_lookup.md): the closed form of `UNLOOKUP` is read off the
45 entries of `V2C`; that of `LOOKUP` follows because the two lookups invert each other. -/

namespace Sys2Proof.Machine

/-! ### The two lookups invert each other -/

/-- Each entry of `V2C` leads back to its own index (R85). -/
@[simp] theorem lookup_unlookup : ∀ i : Digit, lookup (unlookup i) = some i := by decide

/-- Each value in a stretch of `C2V` that begins at code `n` stands at the code of its own character. -/
abbrev StandsAtOwnCodes (n : Nat) (l : List C2VEntry) : Prop :=
  ∀ p ∈ l.zipIdx n, ∀ v ∈ p.1, (unlookup v).toNat = p.2

theorem StandsAtOwnCodes.append {n : Nat} {l m : List C2VEntry} (hl : StandsAtOwnCodes n l)
    (hm : StandsAtOwnCodes (n + l.length) m) : StandsAtOwnCodes n (l ++ m) := by
  rw [StandsAtOwnCodes, List.zipIdx_append]
  exact List.forall_mem_append.2 ⟨hl, hm⟩

theorem notFound_standsAtOwnCodes (n k : Nat) : StandsAtOwnCodes n (notFound k) := by
  intro p hp v hv
  rw [List.eq_of_mem_replicate (List.fst_mem_of_mem_zipIdx hp)] at hv
  cases hv

/-- The whole of `C2V`, in the stretches of its definition: nothing below 0x20, then the rows of the first
punctuation marks, of the digits and of the letters, and nothing from 0x60 up (R81, R84). -/
theorem c2vTable_standsAtOwnCodes : StandsAtOwnCodes 0 c2vTable :=
  .append (.append (.append (.append (notFound_standsAtOwnCodes _ _) (by decide)) (by decide)) (by decide))
    (notFound_standsAtOwnCodes _ _)

/-- Each value found in `C2V` stands at the code of its own character (R85). -/
theorem unlookup_of_lookup_eq_some {a : Byte} {v : Digit} (h : lookup a = some v) : unlookup v = a := by
  have hmem : (some v, a.toNat) ∈ c2vTable.zipIdx :=
    List.mk_mem_zipIdx_iff_getElem?.2 ((Option.getD_eq_iff.1 h).resolve_right fun hn => nomatch hn.2)
  exact BitVec.eq_of_toNat_eq (c2vTable_standsAtOwnCodes _ hmem v rfl)

/-- `LOOKUP` and `UNLOOKUP` are one relation between codes and indices (R85). -/
theorem lookup_eq_some_iff {a : Byte} {v : Digit} : lookup a = some v ↔ unlookup v = a :=
  ⟨unlookup_of_lookup_eq_some, fun h => h ▸ lookup_unlookup v⟩

/-! ### The closed form of `UNLOOKUP` -/

/-- The indices above those of the digits and letters (R80). -/
def punctuationDigits : List Digit := [36, 37, 38, 39, 40, 41, 42, 43, 44]

/-- Their codes, in the same order (R81). -/
def punctuationCodes : List Byte := [0x20, 0x24, 0x25, 0x2A, 0x2B, 0x2D, 0x2E, 0x2F, 0x3A]

theorem unlookup_toNat_of_le_9 : ∀ i : Digit, i.val ≤ 9 → (unlookup i).toNat = 0x30 + i.val := by
  decide

theorem unlookup_toNat_of_10_le_of_le_35 :
    ∀ i : Digit, 10 ≤ i.val → i.val ≤ 35 → (unlookup i).toNat = 0x41 + (i.val - 10) := by
  decide

theorem map_unlookup_punctuationDigits : punctuationDigits.map unlookup = punctuationCodes := by
  decide

theorem mem_punctuationDigits_of_35_lt : ∀ i : Digit, 35 < i.val → i ∈ punctuationDigits := by
  decide

theorem unlookup_mem_punctuationCodes {i : Digit} (h : 35 < i.val) : unlookup i ∈ punctuationCodes :=
  map_unlookup_punctuationDigits ▸ List.mem_map_of_mem (mem_punctuationDigits_of_35_lt i h)

/-! ### The closed form of `LOOKUP` -/

theorem lookup_digitCode (a : Byte) (h0 : 0x30 ≤ a.toNat) (h9 : a.toNat ≤ 0x39) :
    ∃ v, lookup a = some v ∧ v.val = a.toNat - 0x30 := by
  refine ⟨⟨a.toNat - 0x30, by omega⟩, lookup_eq_some_iff.2 (BitVec.eq_of_toNat_eq ?_), rfl⟩
  rw [unlookup_toNat_of_le_9 _ (by simp only; omega)]
  simp only
  omega

theorem lookup_letterCode (a : Byte) (hA : 0x41 ≤ a.toNat) (hZ : a.toNat ≤ 0x5A) :
    ∃ v, lookup a = some v ∧ v.val = a.toNat - 0x41 + 10 := by
  refine ⟨⟨a.toNat - 0x41 + 10, by omega⟩, lookup_eq_some_iff.2 (BitVec.eq_of_toNat_eq ?_), rfl⟩
  rw [unlookup_toNat_of_10_le_of_le_35 _ (by simp only; omega) (by simp only; omega)]
  simp only
  omega

theorem map_lookup_punctuationCodes : punctuationCodes.map lookup = punctuationDigits.map some := by
  rw [← map_unlookup_punctuationDigits, List.map_map]
  exact List.map_congr_left fun i _ => lookup_unlookup i

/-- A code is a digit's, a letter's or a punctuation mark's, or it is not found: a found index has one of
the three forms of code (R83). -/
theorem lookup_eq_none (a : Byte) (hdigit : a.toNat < 0x30 ∨ 0x39 < a.toNat)
    (hletter : a.toNat < 0x41 ∨ 0x5A < a.toNat) (hpunct : a ∉ punctuationCodes) : lookup a = none := by
  refine Option.eq_none_iff_forall_ne_some.2 fun v hv => ?_
  obtain rfl := lookup_eq_some_iff.1 hv
  rcases Nat.lt_or_ge 35 v.val with h35 | h35
  · exact hpunct (unlookup_mem_punctuationCodes h35)
  · rcases Nat.lt_or_ge 9 v.val with h9 | h9
    · have := unlookup_toNat_of_10_le_of_le_35 v h9 h35
      omega
    · have := unlookup_toNat_of_le_9 v h9
      omega

/-- Settles O8, range by range. -/
theorem lookupClosedForms : Obligations.LookupClosedForms :=
  ⟨unlookup_toNat_of_le_9, unlookup_toNat_of_10_le_of_le_35, map_unlookup_punctuationDigits, lookup_digitCode,
    lookup_letterCode, map_lookup_punctuationCodes, lookup_eq_none⟩

end Sys2Proof.Machine
end

section
/-! Proofs for the digit extractor family (41_digit_extractor.md): a comparator against a power of two
tests the top bits of its operand, and the byte splitter is the one way to write a value as two bytes. -/

namespace Sys2Proof.Machine

/-- The field of a word from bit `k` up to its top is the word's quotient by `2 ^ k`. -/
theorem extractLsb'_top_toNat {k m n : Nat} (x : BitVec n) (h : n ≤ k + m) :
    (x.extractLsb' k m).toNat = x.toNat / 2 ^ k := by
  rw [BitVec.extractLsb'_toNat, Nat.shiftRight_eq_div_pow]
  refine Nat.mod_eq_of_lt (Nat.div_lt_of_lt_mul ?_)
  calc x.toNat < 2 ^ n := x.isLt
    _ ≤ 2 ^ (k + m) := Nat.pow_le_pow_right (by decide) h
    _ = 2 ^ k * 2 ^ m := Nat.pow_add 2 k m

/-! ### The values of groups of digits -/

/-- A final pair is a triple whose third digit is 0 (R99). -/
theorem val2_eq_val3 (c0 c1 : Val6) : val2 c0 c1 = val3 c0 c1 0 := by
  simp [val2, val3]

theorem val3_digits_le (c0 c1 c2 : Digit) : val3 (digitVal c0) (digitVal c1) (digitVal c2) ≤ 91124 := by
  rw [val3_digits]
  omega

theorem val2_digits_le (c0 c1 : Digit) : val2 (digitVal c0) (digitVal c1) ≤ 2024 := by
  rw [val2_digits]
  omega

/-- The positional value of a triple in Horner's form (R98). -/
theorem val3_digits_horner (c0 c1 c2 : Digit) :
    val3 (digitVal c0) (digitVal c1) (digitVal c2) = (c2.val * 45 + c1.val) * 45 + c0.val := by
  rw [val3_digits]
  omega

/-! ### The range comparators -/

/-- On 17 bits, the comparator of a triple reads the top bit (R100). -/
theorem ovf3_eq_getLsbD (x : BitVec 17) : ovf3 x.toNat = x.getLsbD 16 :=
  (BitVec.msb_eq_decide x).symm

/-- On 11 bits, the comparator of a final pair reads the top three bits (R100). -/
theorem ovf2_eq_extractLsb'_ne_zero (x : BitVec 11) : ovf2 x.toNat = (x.extractLsb' 8 3 != 0) := by
  have hfield : (x.extractLsb' 8 3).toNat = x.toNat / 256 := extractLsb'_top_toNat x (by decide)
  rw [Bool.eq_iff_iff, ovf2_iff, bne_iff_ne, BitVec.toNat_ne, hfield, BitVec.ofNat_eq_ofNat,
    BitVec.toNat_zero]
  omega

/-- Settles O14, from the values of digits and the comparators' bit forms. -/
theorem groupValuesAndComparators : Obligations.GroupValuesAndComparators :=
  ⟨fun c0 c1 c2 => ⟨val3_digits c0 c1 c2, val3_digits_horner c0 c1 c2, val3_digits_le c0 c1 c2,
      val2_digits c0 c1, val2_eq_val3 _ _, val2_digits_le c0 c1⟩,
    rfl, rfl, rfl, rfl,
    fun x => ⟨ovf3_iff x.toNat, ovf3_eq_getLsbD x⟩,
    fun x => ⟨ovf2_iff x.toNat, ovf2_eq_extractLsb'_ne_zero x⟩⟩

/-! ### The byte splitter -/

/-- The two bytes of a 16-bit value are the only ones that pair to it, big-endian (R46, R102). -/
theorem splitBytes_eq_iff {x : Nat} (h : x < 65536) {hi lo : Byte} :
    splitBytes x = (hi, lo) ↔ hi.toNat * 256 + lo.toNat = x := by
  obtain ⟨hhi, hlo⟩ := splitBytes_toNat x h
  simp only [Prod.ext_iff, BitVec.toNat_eq, hhi, hlo]
  have := lo.isLt
  omega

theorem splitBytes_pair (hi lo : Byte) : splitBytes (hi.toNat * 256 + lo.toNat) = (hi, lo) :=
  (splitBytes_eq_iff (by omega)).2 rfl

/-- The bytes of a 16-bit word are its upper and its lower field (R102). -/
theorem splitBytes_eq_extractLsb' (x : BitVec 16) :
    splitBytes x.toNat = (x.extractLsb' 8 8, x.extractLsb' 0 8) := by
  refine (splitBytes_eq_iff x.isLt).2 ?_
  rw [extractLsb'_top_toNat x (by decide), BitVec.extractLsb'_toNat]
  exact Nat.div_add_mod' x.toNat 256

/-- Settles O16, from the uniqueness of the two bytes. -/
theorem byteSplitter : Obligations.ByteSplitter :=
  ⟨fun x => ⟨splitBytes_eq_extractLsb' x, splitBytes_toNat x.toNat x.isLt⟩, splitBytes_pair,
    splitBytes_pair 0x41 0x42⟩

end Sys2Proof.Machine
end

section
/-! Proofs for the encoder commands family (42_encode_commands.md): the number of a command's word, and the
next state of `ENCB` and `ENCE` by `EPH`. -/

namespace Sys2Proof.Machine

/-- The number of a command's word: the opcode's base plus the operand (R62). -/
theorem encode_toNat (i : Instr) : (encode i).toNat = i.op.toNat * 0x100 + i.data.toNat :=
  toNat_append_eq_add i.op i.data

/-- A command that emits nothing writes its registers and leaves the queue alone. -/
theorem State.commit_quiet (s : State) (r : Regs) : s.commit (quiet r) = { s with regs := r } := by
  rw [State.commit, quiet_regs, quiet_beats, List.append_nil]

/-! ### `ENCB`, by the phase before (R110) -/

/-- `ENCB` completes with its effect on the registers. -/
theorem exec_encb (d : Byte) (s : State) : exec (.encb d) s = .next (s.commit (encbEffect d s.regs)) :=
  exec_eq_commit (.encb d) s

/-- The first byte of a pair is kept and nothing is emitted. -/
theorem exec_encb_zero (d : Byte) (s : State) (h : s.regs.eph = .zero) :
    exec (.encb d) s = .next { s with regs := { s.regs with eph := .one, ehi := d } } := by
  rw [exec_encb, encbEffect_zero d s.regs h]
  exact congrArg _ (s.commit_quiet _)

/-- The second byte of a pair empties the phase and emits the characters of the pair's three digits. -/
theorem exec_encb_one (d : Byte) (s : State) (h : s.regs.eph = .one) :
    exec (.encb d) s = .next { s with
      regs := { s.regs with eph := .zero }
      oq := s.oq ++ [.data .enc (unlookup (dig3 (pairValue s.regs.ehi d)).1),
        .data .enc (unlookup (dig3 (pairValue s.regs.ehi d)).2.1),
        .data .enc (unlookup (dig3 (pairValue s.regs.ehi d)).2.2)] } := by
  rw [exec_encb, encbEffect_one d s.regs h]
  rfl

/-! ### `ENCE`, by the phase before (R111) -/

/-- With no byte held, the end beat is all that happens: `EPH` is 0 already. -/
theorem exec_ence_zero (reserved : Byte) (s : State) (h : s.regs.eph = .zero) :
    exec (.ence reserved) s = .next { s with oq := s.oq ++ [.endOf .enc .ok] } := by
  have hregs : { s.regs with eph := .zero } = s.regs := by rw [← h]
  rw [exec_ence, enceEffect_zero s.regs h, State.commit, endEncoder_regs, hregs]
  rfl

/-- A trailing byte is emitted as the characters of its two digits, before the end beat. -/
theorem exec_ence_one (reserved : Byte) (s : State) (h : s.regs.eph = .one) :
    exec (.ence reserved) s = .next { s with
      regs := { s.regs with eph := .zero }
      oq := s.oq ++ [.data .enc (unlookup (dig2 s.regs.ehi).1), .data .enc (unlookup (dig2 s.regs.ehi).2),
        .endOf .enc .ok] } := by
  rw [exec_ence, enceEffect_one s.regs h]
  rfl

/-- Settles O18, row by row of R112. -/
theorem encoderTransitionTable : Obligations.EncoderTransitionTable := by
  intro s d h rsv
  refine ⟨?_, rfl, exec_encb_zero d s, fun hone hehi => ?_, exec_ence_zero rsv s, fun hone hehi => ?_⟩
  · exact (encode_toNat (.encb d)).trans (by simp [Instr.op, Instr.data])
  · rw [← hehi]
    exact exec_encb_one d s hone
  · rw [← hehi]
    exact exec_ence_one rsv s hone

end Sys2Proof.Machine
end

section
/-! Proofs for the decoder commands family (43_decode_commands.md): the rows of `DECC` and `DECE` that a
comparator decides, what a command's effect makes of the whole state, and the table of R122. -/

namespace Sys2Proof.Machine

/-! ### The rows a comparator decides (R120, R121) -/

/-- A completed triple in range is emitted as its two bytes. -/
theorem deccEffect_two_inRange (c : Byte) (v : Digit) (r : Regs) (h : r.derr = .ok)
    (hc : lookup c = some v) (hp : r.dph = .two) (hle : val3 r.dv0 r.dv1 (digitVal v) ≤ 65535) :
    deccEffect c r = ⟨{ r with dph := .zero }, dataBeats .dec
      [(splitBytes (val3 r.dv0 r.dv1 (digitVal v))).1, (splitBytes (val3 r.dv0 r.dv1 (digitVal v))).2]⟩ := by
  rw [deccEffect_two c v r h hc hp, if_neg (by rwa [ovf3_iff, Nat.not_lt])]

/-- A completed triple out of range is recorded as Overflow, the phase as it was. -/
theorem deccEffect_two_overflow (c : Byte) (v : Digit) (r : Regs) (h : r.derr = .ok)
    (hc : lookup c = some v) (hp : r.dph = .two) (hlt : 65535 < val3 r.dv0 r.dv1 (digitVal v)) :
    deccEffect c r = quiet { r with derr := .fault .overflow } := by
  rw [deccEffect_two c v r h hc hp, if_pos ((ovf3_iff _).2 hlt)]

/-- A final pair in range is emitted as its byte. -/
theorem deceEffect_two_inRange (r : Regs) (h : r.derr = .ok) (hp : r.dph = .two)
    (hle : val2 r.dv0 r.dv1 ≤ 255) :
    deceEffect r = endDecoder .ok [BitVec.ofNat 8 (val2 r.dv0 r.dv1)] r := by
  rw [deceEffect_two r h hp, if_neg (by rwa [ovf2_iff, Nat.not_lt])]

/-- A final pair out of range is reported as Overflow. -/
theorem deceEffect_two_overflow (r : Regs) (h : r.derr = .ok) (hp : r.dph = .two)
    (hlt : 255 < val2 r.dv0 r.dv1) : deceEffect r = endDecoder (.fault .overflow) [] r := by
  rw [deceEffect_two r h hp, if_pos ((ovf2_iff _).2 hlt)]

/-! ### From the effect on the registers to the next state -/

/-- `DECC` completes with its effect on the registers. -/
theorem exec_decc (c : Byte) (s : State) : exec (.decc c) s = .next (s.commit (deccEffect c s.regs)) :=
  exec_eq_commit (.decc c) s

/-- A `DECC` that emits nothing changes the registers alone. -/
theorem exec_decc_of_quiet {c : Byte} {s : State} {r : Regs} (h : deccEffect c s.regs = quiet r) :
    exec (.decc c) s = .next { s with regs := r } := by
  rw [exec_decc, h, State.commit_quiet]

/-- With no fault recorded, ending the message empties the phase and writes no other register: `DERR` is 0
already. -/
theorem exec_dece_of_ok {reserved : Byte} {s : State} {st : Status} {symbols : List Byte}
    (hok : s.regs.derr = .ok) (h : deceEffect s.regs = endDecoder st symbols s.regs) :
    exec (.dece reserved) s = .next { s with
      regs := { s.regs with dph := .zero }
      oq := s.oq ++ (dataBeats .dec symbols ++ [.endOf .dec st]) } := by
  rw [exec_dece, h, State.commit, endDecoder_regs, endDecoder_beats, ← hok]

/-- An empty message ends with the end beat alone: `DPH` is 0 already. -/
theorem exec_dece_zero (reserved : Byte) (s : State) (hok : s.regs.derr = .ok) (hp : s.regs.dph = .zero) :
    exec (.dece reserved) s = .next { s with oq := s.oq ++ [.endOf .dec .ok] } := by
  have hregs : { s.regs with dph := .zero } = s.regs := by rw [← hp]
  rw [exec_dece_of_ok hok (deceEffect_zero s.regs hok hp), hregs]
  rfl

/-- Settles O19, row by row of R122. -/
theorem decoderTransitionTable : Obligations.DecoderTransitionTable := by
  intro s ch rsv v k
  refine ⟨?word, rfl, fun hk => ?recorded, fun hok hc => ?invalid, fun hok hp hc => ?first,
    fun hok hp hc => ?second, fun hok hp hc hle => ?triple, fun hok hp hc hlt => ?tripleOverflow,
    fun hk => ?report, exec_dece_zero rsv s, fun hok hp => ?dangling, fun hok hp hle => ?pair,
    fun hok hp hlt => ?pairOverflow⟩
  case word => exact (encode_toNat (.decc ch)).trans (by simp [Instr.op, Instr.data])
  case recorded => exact exec_decc_of_quiet (deccEffect_fault ch s.regs k hk)
  case invalid => exact exec_decc_of_quiet (deccEffect_notFound ch s.regs hok hc)
  case first => exact exec_decc_of_quiet (deccEffect_zero ch v s.regs hok hc hp)
  case second => exact exec_decc_of_quiet (deccEffect_one ch v s.regs hok hc hp)
  case triple =>
    rw [exec_decc, deccEffect_two_inRange ch v s.regs hok hc hp hle]
    rfl
  case tripleOverflow => exact exec_decc_of_quiet (deccEffect_two_overflow ch v s.regs hok hc hp hlt)
  case report =>
    rw [exec_dece, deceEffect_fault s.regs k hk]
    rfl
  case dangling => exact exec_dece_of_ok hok (deceEffect_one s.regs hok hp)
  case pair => exact exec_dece_of_ok hok (deceEffect_two_inRange s.regs hok hp hle)
  case pairOverflow => exact exec_dece_of_ok hok (deceEffect_two_overflow s.regs hok hp hlt)

end Sys2Proof.Machine
end

section
/-! Proofs for the message semantics family (44_message_semantics.md): what the source's two functions make of
one group, what a whole message does from an idle lane, the round trip, and the lengths. -/

namespace Sys2Proof.Machine

/-! ### The equations of `ENCODE` and `DECODE` (R133, R134) -/

@[simp] theorem encodeBytes_nil : encodeBytes [] = [] := rfl

@[simp] theorem encodeBytes_singleton (u : Byte) :
    encodeBytes [u] = [unlookup (dig2 u).1, unlookup (dig2 u).2] := rfl

@[simp] theorem encodeBytes_cons_cons (hi lo : Byte) (bs : List Byte) :
    encodeBytes (hi :: lo :: bs) =
      unlookup (dig3 (pairValue hi lo)).1 :: unlookup (dig3 (pairValue hi lo)).2.1 ::
        unlookup (dig3 (pairValue hi lo)).2.2 :: encodeBytes bs := rfl

theorem decodeText_nil : decodeText [] = .ok [] := rfl

theorem decodeText_of_triple_ok {t0 t1 t2 : Byte} {bs : List Byte} (cs : List Byte)
    (h : decodeTriple t0 t1 t2 = .ok bs) :
    decodeText (t0 :: t1 :: t2 :: cs) = (decodeText cs).after bs := by
  rw [decodeText, h]

theorem MessageResult.after_eq_ok_iff {m : MessageResult} {xs ys : List Byte} :
    m.after xs = .ok ys ↔ ∃ zs, m = .ok zs ∧ ys = xs ++ zs := by
  cases m <;> simp [MessageResult.after, eq_comm]

/-- A leftover character is never a success (R134, R153). -/
theorem decodeLeftover_ne_ok (t : Byte) (bs : List Byte) : decodeLeftover t ≠ .ok bs := by
  unfold decodeLeftover
  split <;> exact MessageResult.noConfusion

/-- A triple succeeds exactly when its characters are found and their value is in range (R134, R155). -/
theorem decodeTriple_eq_ok_iff {t0 t1 t2 : Byte} {bs : List Byte} :
    decodeTriple t0 t1 t2 = .ok bs ↔
      ∃ v0 v1 v2, lookup t0 = some v0 ∧ lookup t1 = some v1 ∧ lookup t2 = some v2 ∧
        val3 (digitVal v0) (digitVal v1) (digitVal v2) ≤ 65535 ∧
        bs = [(splitBytes (val3 (digitVal v0) (digitVal v1) (digitVal v2))).1,
          (splitBytes (val3 (digitVal v0) (digitVal v1) (digitVal v2))).2] := by
  unfold decodeTriple
  split
  next v0 v1 v2 h0 h1 h2 =>
    by_cases hx : 65535 < val3 (digitVal v0) (digitVal v1) (digitVal v2)
    · simp [h0, h1, h2, ovf3, hx, hx.not_ge]
    · simp [h0, h1, h2, ovf3, hx, Nat.not_lt.1 hx, eq_comm]
  next hnot =>
    refine iff_of_false (by simp) ?_
    rintro ⟨v0, v1, v2, h0, h1, h2, -⟩
    exact (hnot v0 v1 v2 h0 h1 h2).elim

/-- A final pair succeeds exactly when its characters are found and their value is in range (R134, R155). -/
theorem decodePair_eq_ok_iff {t0 t1 : Byte} {bs : List Byte} :
    decodePair t0 t1 = .ok bs ↔
      ∃ v0 v1, lookup t0 = some v0 ∧ lookup t1 = some v1 ∧ val2 (digitVal v0) (digitVal v1) ≤ 255 ∧
        bs = [BitVec.ofNat 8 (val2 (digitVal v0) (digitVal v1))] := by
  unfold decodePair
  split
  next v0 v1 h0 h1 =>
    by_cases hx : 255 < val2 (digitVal v0) (digitVal v1)
    · simp [h0, h1, ovf2, hx, hx.not_ge]
    · simp [h0, h1, ovf2, hx, Nat.not_lt.1 hx, eq_comm]
  next hnot =>
    refine iff_of_false (by simp) ?_
    rintro ⟨v0, v1, h0, h1, -⟩
    exact (hnot v0 v1 h0 h1).elim

/-- Induction over a text that decodes: it is empty, or a final pair that succeeds, or a triple that succeeds
and a rest that decodes (R134). -/
theorem decodeText_ok_induction {motive : List Byte → List Byte → Prop} (nil : motive [] [])
    (pair : ∀ t0 t1 ds, decodePair t0 t1 = .ok ds → motive [t0, t1] ds)
    (triple : ∀ t0 t1 t2 ds cs bs, decodeTriple t0 t1 t2 = .ok ds → motive cs bs →
      motive (t0 :: t1 :: t2 :: cs) (ds ++ bs))
    {cs bs : List Byte} (h : decodeText cs = .ok bs) : motive cs bs := by
  induction cs using decodeText.induct generalizing bs with
  | case1 => cases h; exact nil
  | case2 t0 => exact (decodeLeftover_ne_ok t0 bs h).elim
  | case3 t0 t1 => exact pair t0 t1 bs h
  | case4 t0 t1 t2 cs k herr => simp [decodeText, herr] at h
  | case5 t0 t1 t2 cs ds hds ih =>
    rw [decodeText_of_triple_ok cs hds] at h
    obtain ⟨es, hes, rfl⟩ := MessageResult.after_eq_ok_iff.1 h
    exact triple t0 t1 t2 ds cs es hds (ih hes)

/-! ### The round trip of the functions -/

/-- The digits of a pair's value spell it (R103). -/
theorem val3_dig3 (x : BitVec 16) :
    val3 (digitVal (dig3 x).1) (digitVal (dig3 x).2.1) (digitVal (dig3 x).2.2) = x.toNat := by
  rw [val3_digits, dig3_low, dig3_mid, dig3_high]
  omega

/-- The digits of a byte spell it (R103). -/
theorem val2_dig2 (u : Byte) : val2 (digitVal (dig2 u).1) (digitVal (dig2 u).2) = u.toNat := by
  rw [val2_digits, dig2_low, dig2_high]
  omega

theorem decodeTriple_unlookup_dig3 (hi lo : Byte) :
    decodeTriple (unlookup (dig3 (pairValue hi lo)).1) (unlookup (dig3 (pairValue hi lo)).2.1)
      (unlookup (dig3 (pairValue hi lo)).2.2) = .ok [hi, lo] := by
  refine decodeTriple_eq_ok_iff.2
    ⟨_, _, _, lookup_unlookup _, lookup_unlookup _, lookup_unlookup _, ?_, ?_⟩
  · rw [val3_dig3]
    exact Nat.le_of_lt_succ (pairValue hi lo).isLt
  · rw [val3_dig3, pairValue_toNat, splitBytes_pair]

theorem decodePair_unlookup_dig2 (u : Byte) :
    decodePair (unlookup (dig2 u).1) (unlookup (dig2 u).2) = .ok [u] := by
  refine decodePair_eq_ok_iff.2 ⟨_, _, lookup_unlookup _, lookup_unlookup _, ?_, ?_⟩
  · rw [val2_dig2]
    exact Nat.le_of_lt_succ u.isLt
  · rw [val2_dig2, BitVec.ofNat_toNat, BitVec.setWidth_eq]

/-- `DECODE` inverts `ENCODE`, group by group (R137). -/
theorem decodeText_encodeBytes (bs : List Byte) : decodeText (encodeBytes bs) = .ok bs := by
  induction bs using List.twoStepInduction with
  | nil => rfl
  | singleton u => exact decodePair_unlookup_dig2 u
  | cons_cons hi lo bs ih _ =>
    rw [encodeBytes_cons_cons, decodeText_of_triple_ok _ (decodeTriple_unlookup_dig3 hi lo), ih]
    rfl

/-! ### A whole message from an idle lane -/

/-- The beats of one message of a lane are read as its payload and its status (R132). -/
theorem laneMessages_message (l : Lane) (sofar payload : List Byte) (st : Status) :
    laneMessages l sofar (dataBeats l payload ++ [.endOf l st]) = [(sofar ++ payload, st)] := by
  induction payload generalizing sofar with
  | nil => simp [laneMessages]
  | cons b bs ih => simp [laneMessages, ih]

theorem dataBeats_append (l : Lane) (xs ys : List Byte) :
    dataBeats l (xs ++ ys) = dataBeats l xs ++ dataBeats l ys :=
  List.map_append

/-- A pair of bytes, from an idle lane 0, emits its three characters and leaves the lane idle (R110). -/
theorem run_encb_encb {r : Regs} (h : r.idle .enc) (hi lo : Byte) (is : List Instr) :
    run r (.encb hi :: .encb lo :: is) =
      ⟨(run { r with eph := .zero, ehi := hi } is).regs,
        dataBeats .enc [unlookup (dig3 (pairValue hi lo)).1, unlookup (dig3 (pairValue hi lo)).2.1,
          unlookup (dig3 (pairValue hi lo)).2.2] ++ (run { r with eph := .zero, ehi := hi } is).beats⟩ := by
  simp [run, commandEffect, encbEffect_zero hi r h, encbEffect_one lo]

/-- An encoder message from an idle lane 0 emits `ENCODE` of its input and one end beat, and writes no register
but `EPH` and `EHI` (R133). -/
theorem run_encMessage (bs : List Byte) {r : Regs} (h : r.idle .enc) :
    ∃ hi, run r (encMessage bs) =
      ⟨{ r with eph := .zero, ehi := hi }, dataBeats .enc (encodeBytes bs) ++ [.endOf .enc .ok]⟩ := by
  induction bs using List.twoStepInduction generalizing r with
  | nil =>
    exact ⟨r.ehi, by simp [encMessage, run, commandEffect, enceEffect_zero r h, endEncoder]⟩
  | singleton u =>
    exact ⟨u, by simp [encMessage, run, commandEffect, encbEffect_zero u r h, enceEffect_one]⟩
  | cons_cons hi lo bs ih _ =>
    obtain ⟨hi', hrun⟩ := ih (r := { r with eph := .zero, ehi := hi }) rfl
    refine ⟨hi', (run_encb_encb h hi lo (encMessage bs)).trans ?_⟩
    rw [hrun]
    rfl

/-- A triple of characters in range, from an idle lane 1, emits its two bytes and leaves the lane
idle (R120). -/
theorem run_decc_decc_decc {r : Regs} (h : r.idle .dec) {t0 t1 t2 : Byte} {bs : List Byte}
    (ht : decodeTriple t0 t1 t2 = .ok bs) (is : List Instr) :
    ∃ r' : Regs, r'.idle .dec ∧
      run r (.decc t0 :: .decc t1 :: .decc t2 :: is) =
        ⟨(run r' is).regs, dataBeats .dec bs ++ (run r' is).beats⟩ := by
  obtain ⟨v0, v1, v2, h0, h1, h2, hle, rfl⟩ := decodeTriple_eq_ok_iff.1 ht
  obtain ⟨hp, hok⟩ := h
  refine ⟨{ r with dph := .zero, dv0 := digitVal v0, dv1 := digitVal v1 }, ⟨rfl, hok⟩, ?_⟩
  simp [run, commandEffect, deccEffect_zero t0 v0, deccEffect_one t1 v1, deccEffect_two_inRange t2 v2,
    hp, hok, h0, h1, h2, hle]

/-- A decoder message whose text decodes, from an idle lane 1, emits the bytes and one end beat of status 0
(R134). -/
theorem run_decMessage_beats_of_ok {cs bs : List Byte} (hcs : decodeText cs = .ok bs) {r : Regs}
    (h : r.idle .dec) : (run r (decMessage cs)).beats = dataBeats .dec bs ++ [.endOf .dec .ok] := by
  revert r
  refine decodeText_ok_induction (motive := fun cs bs => ∀ {r : Regs}, r.idle .dec →
    (run r (decMessage cs)).beats = dataBeats .dec bs ++ [.endOf .dec .ok]) ?nil ?pair ?triple hcs
  case nil =>
    intro r ⟨hp, hok⟩
    simp [decMessage, run, commandEffect, deceEffect_zero r hok hp]
  case pair =>
    intro t0 t1 ds hds r ⟨hp, hok⟩
    obtain ⟨v0, v1, h0, h1, hle, rfl⟩ := decodePair_eq_ok_iff.1 hds
    simp [decMessage, run, commandEffect, deccEffect_zero t0 v0, deccEffect_one t1 v1, deceEffect_two_inRange,
      hp, hok, h0, h1, hle]
  case triple =>
    intro t0 t1 t2 ds cs bs hds ih r h
    obtain ⟨r', hidle, hrun⟩ := run_decc_decc_decc h hds (decMessage cs)
    calc (run r (decMessage (t0 :: t1 :: t2 :: cs))).beats
        = dataBeats .dec ds ++ (run r' (decMessage cs)).beats := congrArg Effect.beats hrun
      _ = dataBeats .dec (ds ++ bs) ++ [.endOf .dec .ok] := by
        rw [ih hidle, dataBeats_append, List.append_assoc]

/-- Settles O37: the text is `ENCODE` of the bytes, and the encoder message leaves lane 1 as it was. -/
theorem decodingTheEncodingGivesItBack : Obligations.DecodingTheEncodingGivesItBack := by
  refine ⟨decodeText_encodeBytes, fun r bs henc hdec => ⟨encodeBytes bs, ?_⟩⟩
  obtain ⟨hi, hrun⟩ := run_encMessage bs henc
  have hidle : (run r (encMessage bs)).regs.idle .dec := by rwa [hrun]
  rw [run_decMessage_beats_of_ok (decodeText_encodeBytes bs) hidle, hrun]
  exact ⟨laneMessages_message .enc [] _ _, laneMessages_message .dec [] _ _⟩

/-! ### Lengths (R138) -/

theorem length_encodeBytes (bs : List Byte) :
    (encodeBytes bs).length = 3 * (bs.length / 2) + 2 * (bs.length % 2) := by
  induction bs using List.twoStepInduction with
  | nil => rfl
  | singleton u => simp
  | cons_cons hi lo bs ih _ =>
    simp only [encodeBytes_cons_cons, List.length_cons, ih]
    omega

/-- Each triple that decodes gives two bytes, a final pair one. -/
theorem length_of_decodeText_eq_ok {cs bs : List Byte} (h : decodeText cs = .ok bs) :
    bs.length = 2 * (cs.length / 3) + (cs.length % 3) / 2 := by
  refine decodeText_ok_induction
    (motive := fun cs bs => bs.length = 2 * (cs.length / 3) + (cs.length % 3) / 2) rfl ?pair ?triple h
  case pair =>
    intro t0 t1 ds hds
    obtain ⟨v0, v1, -, -, -, rfl⟩ := decodePair_eq_ok_iff.1 hds
    simp
  case triple =>
    intro t0 t1 t2 ds cs bs hds ih
    obtain ⟨v0, v1, v2, -, -, -, -, rfl⟩ := decodeTriple_eq_ok_iff.1 hds
    simp only [List.length_append, List.length_cons, List.length_nil, ih]
    omega

/-- Settles O39: the forms of the length law and its consequence differ by arithmetic alone. -/
theorem lengthLaw : Obligations.LengthLaw := by
  refine ⟨fun bs => ?_, ?_, fun cs bs => length_of_decodeText_eq_ok⟩
  · rw [length_encodeBytes]
    omega
  · simp only [length_encodeBytes, List.length_replicate]
    rfl

/-! ### Empty messages (R139) -/

/-- Settles O40: on an idle lane an END command finds the first row of its table. -/
theorem emptyMessages : Obligations.EmptyMessages :=
  ⟨encodeBytes_nil, decodeText_nil, fun s rsv h => exec_ence_zero rsv s h,
    fun s rsv ⟨hp, hok⟩ => exec_dece_zero rsv s hok hp⟩

end Sys2Proof.Machine
end

section
/-! Proofs for the exceptions family (60_exceptions.md): what one group of a text comes to when a character of it
is not found, and when all of them are (R155). -/

namespace Sys2Proof.Machine

/-! ### Texts of one group -/

theorem MessageResult.after_nil (bs : List Byte) : (MessageResult.ok []).after bs = .ok bs :=
  congrArg MessageResult.ok (List.append_nil bs)

theorem decodeText_singleton (t0 : Byte) : decodeText [t0] = decodeLeftover t0 := rfl

theorem decodeText_pair (t0 t1 : Byte) : decodeText [t0, t1] = decodePair t0 t1 := rfl

theorem decodeText_triple (t0 t1 t2 : Byte) : decodeText [t0, t1, t2] = decodeTriple t0 t1 t2 := by
  cases h : decodeTriple t0 t1 t2 with
  | err k => rw [decodeText, h]
  | ok bs => rw [decodeText_of_triple_ok [] h, decodeText_nil, MessageResult.after_nil]

/-! ### A group with a character that is not found -/

theorem decodeTriple_of_notFound {t0 t1 t2 : Byte}
    (h : lookup t0 = none ∨ lookup t1 = none ∨ lookup t2 = none) :
    decodeTriple t0 t1 t2 = .err .invalidChar := by
  unfold decodeTriple
  split
  next h0 h1 h2 => simp [h0, h1, h2] at h
  next => rfl

theorem decodePair_of_notFound {t0 t1 : Byte} (h : lookup t0 = none ∨ lookup t1 = none) :
    decodePair t0 t1 = .err .invalidChar := by
  unfold decodePair
  split
  next h0 h1 => simp [h0, h1] at h
  next => rfl

theorem decodeLeftover_of_notFound {t0 : Byte} (h : lookup t0 = none) :
    decodeLeftover t0 = .err .invalidChar := by
  rw [decodeLeftover, h]

/-! ### A group whose characters are all found -/

theorem decodeTriple_of_found {t0 t1 t2 : Byte} {v0 v1 v2 : Digit} (h0 : lookup t0 = some v0)
    (h1 : lookup t1 = some v1) (h2 : lookup t2 = some v2) :
    decodeTriple t0 t1 t2 =
      if ovf3 (val3 (digitVal v0) (digitVal v1) (digitVal v2)) then .err .overflow
      else .ok [(splitBytes (val3 (digitVal v0) (digitVal v1) (digitVal v2))).1,
        (splitBytes (val3 (digitVal v0) (digitVal v1) (digitVal v2))).2] := by
  rw [decodeTriple, h0, h1, h2]

theorem decodePair_of_found {t0 t1 : Byte} {v0 v1 : Digit} (h0 : lookup t0 = some v0)
    (h1 : lookup t1 = some v1) :
    decodePair t0 t1 =
      if ovf2 (val2 (digitVal v0) (digitVal v1)) then .err .overflow
      else .ok [BitVec.ofNat 8 (val2 (digitVal v0) (digitVal v1))] := by
  rw [decodePair, h0, h1]

theorem decodeLeftover_of_found {t0 : Byte} {v0 : Digit} (h : lookup t0 = some v0) :
    decodeLeftover t0 = .err .dangling := by
  rw [decodeLeftover, h]

/-! ### Which fault a group is -/

theorem decodeTriple_eq_invalidChar_iff {t0 t1 t2 : Byte} :
    decodeTriple t0 t1 t2 = .err .invalidChar ↔
      (lookup t0 = none ∨ lookup t1 = none ∨ lookup t2 = none) := by
  refine ⟨fun h => ?_, decodeTriple_of_notFound⟩
  by_contra hfound
  simp only [not_or, ← ne_eq, Option.ne_none_iff_exists'] at hfound
  obtain ⟨⟨v0, h0⟩, ⟨v1, h1⟩, ⟨v2, h2⟩⟩ := hfound
  rw [decodeTriple_of_found h0 h1 h2] at h
  split at h <;> cases h

theorem decodePair_eq_invalidChar_iff {t0 t1 : Byte} :
    decodePair t0 t1 = .err .invalidChar ↔ (lookup t0 = none ∨ lookup t1 = none) := by
  refine ⟨fun h => ?_, decodePair_of_notFound⟩
  by_contra hfound
  simp only [not_or, ← ne_eq, Option.ne_none_iff_exists'] at hfound
  obtain ⟨⟨v0, h0⟩, ⟨v1, h1⟩⟩ := hfound
  rw [decodePair_of_found h0 h1] at h
  split at h <;> cases h

theorem decodeLeftover_eq_invalidChar_iff {t0 : Byte} :
    decodeLeftover t0 = .err .invalidChar ↔ lookup t0 = none := by
  cases h : lookup t0 with
  | none => simp [decodeLeftover_of_notFound h]
  | some v0 => simp [decodeLeftover_of_found h]

theorem decodeLeftover_eq_dangling_iff {t0 : Byte} :
    decodeLeftover t0 = .err .dangling ↔ lookup t0 ≠ none := by
  cases h : lookup t0 with
  | none => simp [decodeLeftover_of_notFound h]
  | some v0 => simp [decodeLeftover_of_found h]

theorem decodeTriple_unlookup_eq_overflow_iff (v0 v1 v2 : Digit) :
    decodeTriple (unlookup v0) (unlookup v1) (unlookup v2) = .err .overflow ↔
      65535 < v2.val * 2025 + v1.val * 45 + v0.val := by
  rw [decodeTriple_of_found (lookup_unlookup v0) (lookup_unlookup v1) (lookup_unlookup v2),
    ← val3_digits, ← ovf3_iff]
  split <;> simp [*]

theorem decodePair_unlookup_eq_overflow_iff (v0 v1 : Digit) :
    decodePair (unlookup v0) (unlookup v1) = .err .overflow ↔ 255 < v1.val * 45 + v0.val := by
  rw [decodePair_of_found (lookup_unlookup v0) (lookup_unlookup v1), ← val2_digits, ← ovf2_iff]
  split <;> simp [*]

/-- Settles O27: a text of one group comes to what its group does, which is judged by whether its characters are
found first, and by its value only then. -/
theorem groupFaultPriority : Obligations.GroupFaultPriority := by
  unfold Obligations.GroupFaultPriority
  simp only [decodeText_triple, decodeText_pair, decodeText_singleton]
  exact ⟨fun _ _ _ => decodeTriple_eq_invalidChar_iff, fun _ _ => decodePair_eq_invalidChar_iff,
    fun _ => ⟨decodeLeftover_eq_invalidChar_iff, decodeLeftover_eq_dangling_iff⟩,
    decodeTriple_unlookup_eq_overflow_iff, decodePair_unlookup_eq_overflow_iff⟩

end Sys2Proof.Machine
end

section
/-! Proofs for the round trips of words (30_encoding.md): a command is put together from its opcode and its
operand and is read off them, and a beat is read off the four fields of its word. -/

namespace Sys2Proof.Machine

/-! ### Command words -/

/-- The operand of the decoded command is the field `cmd[7:0]` (R62). -/
theorem decode_data (w : CmdWord) : (decode w).data = w.extractLsb' 0 8 := by
  rcases decode_cases w with ⟨-, -, h⟩ | ⟨-, -, h⟩ | ⟨-, -, h⟩ | ⟨-, -, h⟩ <;> rw [h] <;> rfl

theorem encode_decode (w : CmdWord) : encode (decode w) = w := by
  rw [encode, decode_op, decode_data]
  exact BitVec.extractLsb'_append_extractLsb'

/-- A command is its opcode and its operand (R62, R63). -/
theorem eq_of_op_eq_of_data_eq {i j : Instr} (hop : i.op = j.op) (hdata : i.data = j.data) : i = j := by
  cases i <;> cases j <;> simp_all [Instr.op, Instr.data]

theorem encode_injective : Function.Injective encode := by
  intro i j h
  refine eq_of_op_eq_of_data_eq ?_ ?_
  · simpa only [encode, BitVec.extractLsb'_append_eq_left] using congrArg (BitVec.extractLsb' 8 2) h
  · simpa only [encode, BitVec.extractLsb'_append_eq_right] using congrArg (BitVec.extractLsb' 0 8) h

theorem decode_encode (i : Instr) : decode (encode i) = i :=
  encode_injective (encode_decode (encode i))

/-- Settles O1: encoding loses nothing of a command, and decoding a word nothing of its two fields. -/
theorem commandWordsRoundTrip : Obligations.CommandWordsRoundTrip :=
  ⟨decode_encode, encode_decode⟩

/-- Settles O2, bit 9 and bit 8 of each word choosing the command. -/
theorem sampleWordsDecode : Obligations.SampleWordsDecode :=
  ⟨decode_eq_encb rfl rfl, decode_eq_ence rfl rfl, decode_eq_decc rfl rfl, decode_eq_dece rfl rfl⟩

/-! ### Beat words -/

theorem beatFields_inj {l l' e e' : BitVec 1} {st st' : BitVec 2} {d d' : Byte} :
    (l ++ (e ++ (st ++ d)) : BeatWord) = l' ++ (e' ++ (st' ++ d')) ↔ l = l' ∧ e = e' ∧ st = st' ∧ d = d' := by
  refine ⟨fun h => ?_, by rintro ⟨rfl, rfl, rfl, rfl⟩; rfl⟩
  obtain ⟨hl, he, hst, hd⟩ := extractLsb'_beatFields l e st d
  obtain ⟨hl', he', hst', hd'⟩ := extractLsb'_beatFields l' e' st' d'
  rw [h] at hl he hst hd
  exact ⟨hl.symm.trans hl', he.symm.trans he', hst.symm.trans hst', hd.symm.trans hd'⟩

theorem laneBit_injective : Function.Injective laneBit := by
  intro l l' h
  cases l <;> cases l' <;> simp_all [laneBit]

theorem FaultKind.code_ne_zero (k : FaultKind) : k.code ≠ 0 := by
  cases k <;> decide

theorem FaultKind.code_injective : Function.Injective FaultKind.code := by
  intro k k' h
  cases k <;> cases k' <;> simp_all [FaultKind.code]

theorem Status.code_injective : Function.Injective Status.code := by
  intro s s' h
  rcases s with _ | k <;> rcases s' with _ | k'
  · rfl
  · exact absurd h.symm k'.code_ne_zero
  · exact absurd h k.code_ne_zero
  · rw [FaultKind.code_injective h]

/-- Settles O6: the `end` bit tells the kind of the beat, and the other fields what it carries. -/
theorem beatWordDeterminesBeat : Obligations.BeatWordDeterminesBeat := by
  intro b b' h
  rcases b with ⟨l, d⟩ | ⟨l, s⟩ <;> rcases b' with ⟨l', d'⟩ | ⟨l', s'⟩ <;>
    obtain ⟨hl, hend, hst, hd⟩ := beatFields_inj.1 h
  · rw [laneBit_injective hl, hd]
  · exact absurd hend (by decide)
  · exact absurd hend (by decide)
  · rw [laneBit_injective hl, Status.code_injective hst]

end Sys2Proof.Machine
end

section
/-! Proofs for the alphabet (40_alphabet_lookup.md) beyond the closed forms: the two lookups as one relation,
which codes are found and how many, and the image of the character ROM. -/

namespace Sys2Proof.Machine

theorem unlookup_injective : Function.Injective unlookup :=
  fun i j h => Option.some.inj (by rw [← lookup_unlookup i, h, lookup_unlookup])

/-- Settles O7: both lookups read the one relation between indices and codes. -/
theorem lookupsAreInverse : Obligations.LookupsAreInverse :=
  ⟨lookup_unlookup, fun _ _ => unlookup_of_lookup_eq_some, fun _ _ h => unlookup_injective h,
    fun _ _ _ ha hb => (unlookup_of_lookup_eq_some ha).symm.trans (unlookup_of_lookup_eq_some hb)⟩

/-! ### Which codes are found (R84) -/

/-- Every code of the alphabet is one of the first eight punctuation marks, or lies in one of two stretches. -/
theorem unlookup_mem_alphabet : ∀ i : Digit,
    unlookup i ∈ [(0x20 : Byte), 0x24, 0x25, 0x2A, 0x2B, 0x2D, 0x2E, 0x2F] ∨
      (0x30 ≤ (unlookup i).toNat ∧ (unlookup i).toNat ≤ 0x3A) ∨
      (0x41 ≤ (unlookup i).toNat ∧ (unlookup i).toNat ≤ 0x5A) := by
  decide

/-- The codes of the punctuation marks are found. -/
theorem lookup_isSome_of_mem_punctuationCodes {a : Byte} (h : a ∈ punctuationCodes) :
    (lookup a).isSome = true := by
  have hmem : lookup a ∈ punctuationDigits.map some := map_lookup_punctuationCodes ▸ List.mem_map_of_mem h
  obtain ⟨i, -, hi⟩ := List.mem_map.1 hmem
  rw [← hi, Option.isSome_some]

theorem lookup_isSome_iff (a : Byte) : (lookup a).isSome = true ↔
    (a ∈ [(0x20 : Byte), 0x24, 0x25, 0x2A, 0x2B, 0x2D, 0x2E, 0x2F] ∨
      (0x30 ≤ a.toNat ∧ a.toNat ≤ 0x3A) ∨ (0x41 ≤ a.toNat ∧ a.toNat ≤ 0x5A)) := by
  constructor
  · intro h
    obtain ⟨i, hi⟩ := Option.isSome_iff_exists.1 h
    obtain rfl := unlookup_of_lookup_eq_some hi
    exact unlookup_mem_alphabet i
  · rintro (hpunct | ⟨h0, hA⟩ | ⟨hA, hZ⟩)
    · exact lookup_isSome_of_mem_punctuationCodes (List.mem_append_left [0x3A] hpunct)
    · rcases Nat.lt_or_eq_of_le hA with hlt | hcolon
      · obtain ⟨v, hv, -⟩ := lookup_digitCode a h0 (Nat.le_of_lt_succ hlt)
        rw [hv, Option.isSome_some]
      · obtain rfl : a = 0x3A := BitVec.eq_of_toNat_eq hcolon
        exact lookup_isSome_of_mem_punctuationCodes (by decide)
    · obtain ⟨v, hv, -⟩ := lookup_letterCode a hA hZ
      rw [hv, Option.isSome_some]

theorem length_notFound (n : Nat) : (notFound n).length = n := List.length_replicate

theorem length_foundFrom (lo n : Nat) : (foundFrom lo n).length = n := by
  rw [foundFrom, List.length_map, List.length_range]

theorem length_c2vTable : c2vTable.length = 256 := by
  simp [c2vTable, length_notFound, length_foundFrom]

theorem countP_isSome_notFound (n : Nat) : (notFound n).countP Option.isSome = 0 := by
  rw [notFound, List.countP_replicate]
  rfl

/-- A stretch of values below 45 is found throughout. -/
theorem countP_isSome_foundFrom {lo n : Nat} (h : lo + n ≤ 45) : (foundFrom lo n).countP Option.isSome = n := by
  refine (List.countP_eq_length.2 fun e he => ?_).trans (length_foundFrom lo n)
  obtain ⟨k, hk, rfl⟩ := List.mem_map.1 he
  rw [dif_pos (by have := List.mem_range.1 hk; omega), Option.isSome_some]

theorem countP_isSome_c2vTable : c2vTable.countP Option.isSome = 45 := by
  simp [c2vTable, countP_isSome_notFound, countP_isSome_foundFrom]

/-- The entries that are not found are all the others. -/
theorem countP_isNone_c2vTable : c2vTable.countP Option.isNone = 211 := by
  have h : 256 = 45 + c2vTable.countP Option.isNone := by
    rw [← length_c2vTable, List.length_eq_countP_add_countP Option.isSome, countP_isSome_c2vTable]
    simp only [Bool.not_eq_true, Bool.decide_eq_false, Option.not_isSome]
  omega

/-- Looking up every code in turn reads out the whole ROM (R40, R41). -/
theorem map_lookup_range : (List.range 256).map (fun n => lookup (BitVec.ofNat 8 n)) = c2vTable := by
  refine List.ext_getElem (by rw [List.length_map, List.length_range, length_c2vTable]) fun n hn _ => ?_
  rw [List.length_map, List.length_range] at hn
  have hlt : n < c2vTable.length := length_c2vTable.symm ▸ hn
  simp [lookup, romC2V, Nat.mod_eq_of_lt hn, hlt]

/-- Counting the codes whose entry has a property is counting the entries of the ROM that have it. -/
theorem length_filter_lookup (p : C2VEntry → Bool) :
    ((List.range 256).filter fun n => p (lookup (BitVec.ofNat 8 n))).length = c2vTable.countP p := by
  rw [← map_lookup_range, List.countP_map, List.countP_eq_length_filter]
  rfl

/-- Settles O9, the counts being those of the entries of `C2V`. -/
theorem exactlyTheAlphabetIsFound : Obligations.ExactlyTheAlphabetIsFound :=
  ⟨lookup_isSome_iff, (length_filter_lookup Option.isSome).trans countP_isSome_c2vTable,
    (length_filter_lookup Option.isNone).trans countP_isNone_c2vTable⟩

/-- The image of a found entry is the valid bit over the index (R41, R70). -/
theorem image_some_toNat (v : Digit) : (C2VEntry.image (some v)).toNat = 64 + v.val := by
  rw [C2VEntry.image, toNat_append_eq_add, BitVec.toNat_one (by decide), BitVec.toNat_ofNat,
    Nat.mod_eq_of_lt (by omega)]
  rfl

/-- Settles O10: `LOOKUP` reads the entry whose image is asked for. -/
theorem characterRomImage : Obligations.CharacterRomImage := by
  refine ⟨fun i => ?_, fun a ha => ?_⟩
  · rw [show romC2V (unlookup i) = some i from lookup_unlookup i, image_some_toNat]
  · rw [show romC2V a = none from ha, C2VEntry.image]

end Sys2Proof.Machine
end

section
/-! Proofs for the digit extractor (41_digit_extractor.md): its digits are the one base-45 representation of a
value, so it inverts the reconstructor on the values in range and has exactly those as images (R93 to R103). -/

namespace Sys2Proof.Machine

/-! ### The positional law (R93, R95) -/

/-- The two divisions find the base-45 representation of a number, and there is no other. -/
theorem triple_positional_iff {c b a x : Nat} (hc : c ≤ 44) (hb : b ≤ 44) :
    a * 2025 + b * 45 + c = x ↔ c = x % 45 ∧ b = x / 45 % 45 ∧ a = x / 45 / 45 := by
  omega

/-- One division finds the base-45 representation of a number with two digits, and there is no other. -/
theorem pair_positional_iff {b a x : Nat} (hb : b ≤ 44) : a * 45 + b = x ↔ b = x % 45 ∧ a = x / 45 := by
  omega

theorem dig3_eq_iff {x : BitVec 16} {c b a : Digit} :
    dig3 x = (c, b, a) ↔ a.val * 2025 + b.val * 45 + c.val = x.toNat := by
  rw [triple_positional_iff (Nat.le_of_lt_succ c.isLt) (Nat.le_of_lt_succ b.isLt)]
  simp only [Prod.ext_iff, Fin.ext_iff, dig3_low, dig3_mid, dig3_high, eq_comm]

theorem dig2_eq_iff {u : Byte} {b a : Digit} : dig2 u = (b, a) ↔ a.val * 45 + b.val = u.toNat := by
  rw [pair_positional_iff (Nat.le_of_lt_succ b.isLt)]
  simp only [Prod.ext_iff, Fin.ext_iff, dig2_low, dig2_high, eq_comm]

theorem dig3_positional (x : BitVec 16) :
    x.toNat = (dig3 x).2.2.val * 2025 + (dig3 x).2.1.val * 45 + (dig3 x).1.val :=
  (dig3_eq_iff.1 rfl).symm

theorem dig2_positional (u : Byte) : u.toNat = (dig2 u).2.val * 45 + (dig2 u).1.val :=
  (dig2_eq_iff.1 rfl).symm

theorem dig3_high_le (x : BitVec 16) : (dig3 x).2.2.val ≤ 32 := by
  rw [dig3_high]
  omega

theorem dig2_high_le (u : Byte) : (dig2 u).2.val ≤ 5 := by
  rw [dig2_high]
  omega

/-- Settles O11, from the positional law. -/
theorem tripleDigitsArePositional : Obligations.TripleDigitsArePositional := by
  refine ⟨fun x => ⟨⟨dig3_positional x, ?_, ?_, dig3_high_le x⟩, ?_, fun c b a hc hb => ?_, fun h => ?_⟩, ?_⟩
  · exact Nat.le_of_lt_succ (dig3 x).1.isLt
  · exact Nat.le_of_lt_succ (dig3 x).2.1.isLt
  · rw [div45_quotient]
    omega
  · exact (triple_positional_iff hc hb).1
  · rw [dig3_high]
    omega
  · exact dig3_eq_iff.2 rfl

/-- Settles O12, from the positional law. -/
theorem pairDigitsArePositional : Obligations.PairDigitsArePositional := by
  refine fun u => ⟨⟨dig2_positional u, ?_, dig2_high_le u⟩, fun b a hb => ?_⟩
  · exact Nat.le_of_lt_succ (dig2 u).1.isLt
  · exact (pair_positional_iff hb).1

/-- Settles O13: the digits of a byte, with a third digit 0, have the byte's value. -/
theorem oneTreeServesBothGroupSizes : Obligations.OneTreeServesBothGroupSizes := by
  intro u
  refine dig3_eq_iff.2 ?_
  rw [BitVec.toNat_setWidth_of_le (by decide), Fin.val_zero, dig2_positional u]
  omega

/-! ### Extractor and reconstructor (R103) -/

theorem dig3_val3 {c0 c1 c2 : Digit} (h : val3 (digitVal c0) (digitVal c1) (digitVal c2) ≤ 65535) :
    dig3 (BitVec.ofNat 16 (val3 (digitVal c0) (digitVal c1) (digitVal c2))) = (c0, c1, c2) := by
  rw [dig3_eq_iff, BitVec.toNat_ofNat, Nat.mod_eq_of_lt (Nat.lt_succ_of_le h), val3_digits]

theorem dig2_val2 {c0 c1 : Digit} (h : val2 (digitVal c0) (digitVal c1) ≤ 255) :
    dig2 (BitVec.ofNat 8 (val2 (digitVal c0) (digitVal c1))) = (c0, c1) := by
  rw [dig2_eq_iff, BitVec.toNat_ofNat, Nat.mod_eq_of_lt (Nat.lt_succ_of_le h), val2_digits]

theorem ovf3_toNat (x : BitVec 16) : ovf3 x.toNat = false := by
  rw [← Bool.not_eq_true, ovf3_iff]
  omega

theorem ovf2_toNat (u : Byte) : ovf2 u.toNat = false := by
  rw [← Bool.not_eq_true, ovf2_iff]
  omega

/-- Settles O17, from the positional law in both directions. -/
theorem extractorAndReconstructorAreInverse : Obligations.ExtractorAndReconstructorAreInverse := by
  refine ⟨fun x => ⟨val3_dig3 x, ?_⟩, fun _ _ _ => dig3_val3, fun u => ⟨val2_dig2 u, ?_⟩, fun _ _ => dig2_val2⟩
  · rw [val3_dig3, ovf3_toNat]
  · rw [val2_dig2, ovf2_toNat]

/-! ### How many groups overflow (R101) -/

theorem dig3_injective : Function.Injective dig3 := by
  intro x y h
  rw [BitVec.toNat_eq, ← val3_dig3 x, ← val3_dig3 y, h]

theorem dig2_injective : Function.Injective dig2 := by
  intro u v h
  rw [BitVec.toNat_eq, ← val2_dig2 u, ← val2_dig2 v, h]

theorem card_bitVec (n : Nat) : Fintype.card (BitVec n) = 2 ^ n :=
  (Fintype.card_congr BitVec.equivFin.toEquiv).trans (Fintype.card_fin _)

/-- A triple is in range exactly when it is the extractor's image of a 16-bit value. -/
theorem ovf3_val3_eq_false_iff (t : Digit × Digit × Digit) :
    ovf3 (val3 (digitVal t.1) (digitVal t.2.1) (digitVal t.2.2)) = false ↔ ∃ x, dig3 x = t := by
  constructor
  · intro h
    rw [← Bool.not_eq_true, ovf3_iff, Nat.not_lt] at h
    exact ⟨_, dig3_val3 h⟩
  · rintro ⟨x, rfl⟩
    rw [val3_dig3, ovf3_toNat]

/-- A final pair is in range exactly when it is the extractor's image of a byte. -/
theorem ovf2_val2_eq_false_iff (t : Digit × Digit) :
    ovf2 (val2 (digitVal t.1) (digitVal t.2)) = false ↔ ∃ u, dig2 u = t := by
  constructor
  · intro h
    rw [← Bool.not_eq_true, ovf2_iff, Nat.not_lt] at h
    exact ⟨_, dig2_val2 h⟩
  · rintro ⟨u, rfl⟩
    rw [val2_dig2, ovf2_toNat]

/-- The values of an injective function are as many as its arguments. -/
theorem card_filter_of_iff_image {α β : Type} [Fintype α] [Fintype β] [DecidableEq β] {f : α → β}
    (hf : Function.Injective f) {q : β → Bool} (hq : ∀ b, q b = false ↔ ∃ a, f a = b) :
    (Finset.univ.filter fun b => q b = false).card = Fintype.card α := by
  have himage : (Finset.univ.filter fun b => q b = false) = Finset.univ.image f := by
    ext b
    simp only [Finset.mem_filter, Finset.mem_univ, true_and, Finset.mem_image, hq]
  rw [himage, Finset.card_image_of_injective _ hf, Finset.card_univ]

theorem card_inRange_triples : (Finset.univ.filter fun t : Digit × Digit × Digit =>
    ovf3 (val3 (digitVal t.1) (digitVal t.2.1) (digitVal t.2.2)) = false).card = 65536 :=
  (card_filter_of_iff_image dig3_injective ovf3_val3_eq_false_iff).trans ((card_bitVec 16).trans (by norm_num))

theorem card_inRange_pairs : (Finset.univ.filter fun t : Digit × Digit =>
    ovf2 (val2 (digitVal t.1) (digitVal t.2)) = false).card = 256 :=
  (card_filter_of_iff_image dig2_injective ovf2_val2_eq_false_iff).trans ((card_bitVec 8).trans (by norm_num))

/-- Counting by a Boolean test: what passes it is what is left of the type without what fails it. -/
theorem card_filter_eq_true {α : Type} [Fintype α] {p : α → Bool} {m n : Nat}
    (hfalse : (Finset.univ.filter fun a => p a = false).card = m) (hcard : Fintype.card α = m + n) :
    (Finset.univ.filter fun a => p a = true).card = n := by
  have h := Finset.card_filter_add_card_filter_not (s := Finset.univ) (fun a => p a = true)
  simp only [Bool.not_eq_true, Finset.card_univ] at h
  omega

/-- Settles O15: the conditions by arithmetic on the values, the counts through the extractor's images. -/
theorem overflowingGroups : Obligations.OverflowingGroups := by
  refine ⟨fun c0 c1 c2 => ?_, fun c0 c1 => ?_, card_inRange_triples,
    card_filter_eq_true card_inRange_triples ?_, card_inRange_pairs, card_filter_eq_true card_inRange_pairs ?_⟩
  · rw [ovf3_iff, val3_digits]
    omega
  · rw [ovf2_iff, val2_digits]
    omega
  · simp only [Fintype.card_prod, Fintype.card_fin]
  · simp only [Fintype.card_prod, Fintype.card_fin]

end Sys2Proof.Machine
end

section
/-! Proofs about single commands (42_encode_commands.md, 43_decode_commands.md, 60_exceptions.md): what each
command leaves unchanged, the lane and the number of its beats, and when it records or reports a fault. -/

namespace Sys2Proof.Machine

/-! ### The effect of a command, by its mnemonic -/

section CommandEffect
variable (x : Byte) (r : Regs)

@[simp] theorem commandEffect_encb : commandEffect (.encb x) r = encbEffect x r := rfl
@[simp] theorem commandEffect_ence : commandEffect (.ence x) r = enceEffect r := rfl
@[simp] theorem commandEffect_decc : commandEffect (.decc x) r = deccEffect x r := rfl
@[simp] theorem commandEffect_dece : commandEffect (.dece x) r = deceEffect r := rfl

end CommandEffect

/-- A command that completes leaves the state its effect makes (R130). -/
theorem eq_commit_of_exec {i : Instr} {s t : State} (h : exec i s = .next t) :
    t = s.commit (commandEffect i s.regs) := by
  rw [exec_eq_commit] at h
  cases h
  rfl

/-! ### The beats of a command -/

/-- `ENCB` emits at most three characters of the alphabet (R110). -/
theorem encbEffect_beats (d : Byte) (r : Regs) : ∃ digits : List Digit,
    digits.length ≤ 3 ∧ (encbEffect d r).beats = dataBeats .enc (digits.map unlookup) := by
  rcases encbEffect_cases d r with ⟨-, h⟩ | ⟨-, h⟩
  · exact ⟨[], by simp, by rw [h]; rfl⟩
  · exact ⟨[_, _, _], le_rfl, by rw [h]; rfl⟩

/-- `ENCE` ends the message with at most two characters of the alphabet (R111). -/
theorem enceEffect_eq_endEncoder (r : Regs) : ∃ digits : List Digit,
    digits.length ≤ 2 ∧ enceEffect r = endEncoder (digits.map unlookup) r := by
  rcases enceEffect_cases r with ⟨-, h⟩ | ⟨-, h⟩
  · exact ⟨[], by simp, h⟩
  · exact ⟨[_, _], le_rfl, h⟩

/-- `DECC` emits at most two bytes (R120). -/
theorem deccEffect_beats (c : Byte) (r : Regs) : ∃ symbols : List Byte,
    symbols.length ≤ 2 ∧ (deccEffect c r).beats = dataBeats .dec symbols := by
  rcases deccEffect_cases c r with ⟨_, -, h⟩ | ⟨-, -, h⟩ | ⟨_, -, -, -, h⟩ | ⟨_, -, -, -, h⟩ |
    ⟨_, -, -, -, -, h⟩ | ⟨_, -, -, -, -, h⟩
  case inr.inr.inr.inr.inr => exact ⟨[_, _], le_rfl, by rw [h]⟩
  all_goals exact ⟨[], by simp, by rw [h]; rfl⟩

/-- `DECE` ends the message with at most one byte (R121). -/
theorem deceEffect_eq_endDecoder (r : Regs) : ∃ (st : Status) (symbols : List Byte),
    symbols.length ≤ 1 ∧ deceEffect r = endDecoder st symbols r := by
  obtain ⟨st, symbols, h, hcase⟩ := deceEffect_cases r
  refine ⟨st, symbols, ?_, h⟩
  rcases hcase with ⟨_, -, -, rfl⟩ | ⟨-, -, -, rfl⟩ | ⟨-, -, -, rfl⟩ | ⟨-, -, -, -, rfl⟩ | ⟨-, -, -, -, rfl⟩ <;> simp

/-- A symbol command emits data beats of its lane alone (R110, R120). -/
theorem commandEffect_beats_of_symbol {i : Instr} (hi : i.isEnd = false) (r : Regs) : ∃ symbols : List Byte,
    symbols.length ≤ 3 ∧ (commandEffect i r).beats = dataBeats i.lane symbols := by
  cases i with
  | encb d =>
    obtain ⟨digits, hlen, h⟩ := encbEffect_beats d r
    exact ⟨_, (List.length_map unlookup).trans_le hlen, h⟩
  | ence rsv => cases hi
  | decc c =>
    obtain ⟨symbols, hlen, h⟩ := deccEffect_beats c r
    exact ⟨symbols, hlen.trans (by decide), h⟩
  | dece rsv => cases hi

/-- An END command emits data beats of its lane and then the end beat of its lane (R111, R121). -/
theorem commandEffect_beats_of_end {i : Instr} (hi : i.isEnd = true) (r : Regs) :
    ∃ (st : Status) (symbols : List Byte), symbols.length ≤ 2 ∧
      (commandEffect i r).beats = dataBeats i.lane symbols ++ [Beat.endOf i.lane st] := by
  cases i with
  | encb d => cases hi
  | ence rsv =>
    obtain ⟨digits, hlen, h⟩ := enceEffect_eq_endEncoder r
    exact ⟨.ok, _, (List.length_map unlookup).trans_le hlen, congrArg Effect.beats h⟩
  | decc c => cases hi
  | dece rsv =>
    obtain ⟨st, symbols, hlen, h⟩ := deceEffect_eq_endDecoder r
    exact ⟨st, symbols, hlen.trans (by decide), congrArg Effect.beats h⟩

theorem lane_of_mem_dataBeats {l : Lane} {symbols : List Byte} {b : Beat} (h : b ∈ dataBeats l symbols) :
    b.lane = l := by
  obtain ⟨x, -, rfl⟩ := List.mem_map.1 h
  rfl

/-- A command emits beats of its own lane only (R110 to R121). -/
theorem lane_of_mem_commandEffect_beats {i : Instr} {r : Regs} {b : Beat} (hb : b ∈ (commandEffect i r).beats) :
    b.lane = i.lane := by
  cases hi : i.isEnd with
  | false =>
    obtain ⟨symbols, -, h⟩ := commandEffect_beats_of_symbol hi r
    exact lane_of_mem_dataBeats (h ▸ hb)
  | true =>
    obtain ⟨st, symbols, -, h⟩ := commandEffect_beats_of_end hi r
    rcases List.mem_append.1 (h ▸ hb) with hdata | hend
    · exact lane_of_mem_dataBeats hdata
    · rw [List.mem_singleton.1 hend]
      rfl

theorem length_dataBeats (l : Lane) (symbols : List Byte) : (dataBeats l symbols).length = symbols.length :=
  List.length_map _

/-- No command emits more than three beats (R130). -/
theorem length_commandEffect_beats_le (i : Instr) (r : Regs) :
    (commandEffect i r).beats.length ≤ Config.maxBeats := by
  rw [Config.maxBeats]
  cases hi : i.isEnd with
  | false =>
    obtain ⟨symbols, hlen, h⟩ := commandEffect_beats_of_symbol hi r
    rwa [h, length_dataBeats]
  | true =>
    obtain ⟨st, symbols, hlen, h⟩ := commandEffect_beats_of_end hi r
    rw [h, List.length_append, length_dataBeats, List.length_singleton]
    omega

/-! ### What a command leaves unchanged -/

/-- The commands of lane 0 write `EPH` and `EHI` alone (R110, R111). -/
theorem commandEffect_regs_of_enc {i : Instr} (hi : i.lane = .enc) (r : Regs) :
    (commandEffect i r).regs.laneEq .dec r := by
  cases i with
  | encb d =>
    rcases encbEffect_cases d r with ⟨-, h⟩ | ⟨-, h⟩ <;> rw [commandEffect_encb, h] <;> exact ⟨rfl, rfl, rfl, rfl⟩
  | ence rsv =>
    obtain ⟨digits, -, h⟩ := enceEffect_eq_endEncoder r
    rw [commandEffect_ence, h]
    exact ⟨rfl, rfl, rfl, rfl⟩
  | decc c => cases hi
  | dece rsv => cases hi

/-- The commands of lane 1 write `DPH`, `DV0`, `DV1` and `DERR` alone (R120, R121). -/
theorem commandEffect_regs_of_dec {i : Instr} (hi : i.lane = .dec) (r : Regs) :
    (commandEffect i r).regs.laneEq .enc r := by
  cases i with
  | encb d => cases hi
  | ence rsv => cases hi
  | decc c =>
    rcases deccEffect_cases c r with ⟨_, -, h⟩ | ⟨-, -, h⟩ | ⟨_, -, -, -, h⟩ | ⟨_, -, -, -, h⟩ |
      ⟨_, -, -, -, -, h⟩ | ⟨_, -, -, -, -, h⟩ <;> rw [commandEffect_decc, h] <;> exact ⟨rfl, rfl⟩
  | dece rsv =>
    obtain ⟨st, symbols, h, -⟩ := deceEffect_cases r
    rw [commandEffect_dece, h]
    exact ⟨rfl, rfl⟩

/-- A command leaves the registers of the other lane as they are (R20, R135). -/
theorem commandEffect_regs_of_ne {i : Instr} {l : Lane} (h : i.lane ≠ l) (r : Regs) :
    (commandEffect i r).regs.laneEq l r := by
  cases l with
  | enc =>
    cases hi : i.lane with
    | enc => exact absurd hi h
    | dec => exact commandEffect_regs_of_dec hi r
  | dec =>
    cases hi : i.lane with
    | enc => exact commandEffect_regs_of_enc hi r
    | dec => exact absurd hi h

/-- Settles O20: the extractor's digits obey the positional law. -/
theorem encoderEmitsThePositionalDigits : Obligations.EncoderEmitsThePositionalDigits := by
  refine fun s d rsv hone => ⟨⟨_, _, _, ?_, dig3_high_le _, exec_encb_one d s hone⟩,
    ⟨_, _, dig2_positional _, dig2_high_le _, exec_ence_one rsv s hone⟩⟩
  rw [← pairValue_toNat, dig3_positional]

/-- `EHI` is written by `ENCB` at `EPH = 0` alone (R110, R111). -/
theorem commandEffect_ehi {i : Instr} {r : Regs} (hi : i.lane = .enc) (h : i.isEnd = true ∨ r.eph = .one) :
    (commandEffect i r).regs.ehi = r.ehi := by
  cases i with
  | encb d =>
    rw [commandEffect_encb, encbEffect_one d r (h.resolve_left Bool.false_ne_true)]
  | ence rsv =>
    obtain ⟨digits, -, he⟩ := enceEffect_eq_endEncoder r
    rw [commandEffect_ence, he, endEncoder_regs]
  | decc c => cases hi
  | dece rsv => cases hi

/-- Settles O21, from the frame of the effect. -/
theorem encoderCommandsFrame : Obligations.EncoderCommandsFrame := by
  intro i s t hi ht
  rw [eq_commit_of_exec ht]
  exact ⟨commandEffect_regs_of_enc hi s.regs, commandEffect_ehi hi,
    ⟨_, rfl, fun b hb => hi ▸ lane_of_mem_commandEffect_beats hb⟩, rfl, rfl, rfl, rfl, rfl, rfl⟩

/-- `DECC` writes `DV0` at `DPH = 0` alone, and `DV1` at `DPH = 1` alone (R120). -/
theorem deccEffect_values (c : Byte) (r : Regs) :
    (r.dph ≠ .zero → (deccEffect c r).regs.dv0 = r.dv0) ∧ (r.dph ≠ .one → (deccEffect c r).regs.dv1 = r.dv1) := by
  rcases deccEffect_cases c r with ⟨_, -, h⟩ | ⟨-, -, h⟩ | ⟨_, -, -, hp, h⟩ | ⟨_, -, -, hp, h⟩ |
    ⟨_, -, -, -, -, h⟩ | ⟨_, -, -, -, -, h⟩ <;> rw [h]
  case inr.inr.inl => exact ⟨fun hne => absurd hp hne, fun _ => rfl⟩
  case inr.inr.inr.inl => exact ⟨fun _ => rfl, fun hne => absurd hp hne⟩
  all_goals exact ⟨fun _ => rfl, fun _ => rfl⟩

/-- Of the commands of lane 1 only `DECC` writes `DV0` and `DV1` (R120, R121). -/
theorem commandEffect_values {i : Instr} (hi : i.lane = .dec) (r : Regs) :
    ((i.isEnd = true ∨ r.dph ≠ .zero) → (commandEffect i r).regs.dv0 = r.dv0) ∧
      ((i.isEnd = true ∨ r.dph ≠ .one) → (commandEffect i r).regs.dv1 = r.dv1) := by
  cases i with
  | encb d => cases hi
  | ence rsv => cases hi
  | decc c =>
    obtain ⟨h0, h1⟩ := deccEffect_values c r
    exact ⟨fun h => h0 (h.resolve_left Bool.false_ne_true), fun h => h1 (h.resolve_left Bool.false_ne_true)⟩
  | dece rsv =>
    obtain ⟨st, symbols, -, he⟩ := deceEffect_eq_endDecoder r
    rw [commandEffect_dece, he]
    exact ⟨fun _ => rfl, fun _ => rfl⟩

/-! ### Recording a fault (R152 to R157) -/

/-- Either a `DECC` leaves `DERR` alone, or it records one of two faults where none was recorded, and does
nothing else. -/
theorem deccEffect_derr_cases (c : Byte) (r : Regs) :
    (deccEffect c r).regs.derr = r.derr ∨
      (r.derr = .ok ∧ ∃ k, (k = .invalidChar ∨ k = .overflow) ∧
        deccEffect c r = quiet { r with derr := .fault k }) := by
  rcases deccEffect_cases c r with ⟨_, -, h⟩ | ⟨hok, -, h⟩ | ⟨_, -, -, -, h⟩ | ⟨_, -, -, -, h⟩ |
    ⟨_, hok, -, -, -, h⟩ | ⟨_, -, -, -, -, h⟩
  · exact .inl (by rw [h])
  · exact .inr ⟨hok, _, .inl rfl, h⟩
  · exact .inl (by rw [h])
  · exact .inl (by rw [h])
  · exact .inr ⟨hok, _, .inr rfl, h⟩
  · exact .inl (by rw [h])

/-- `DECC` changes `DERR` only from none to InvalidChar or Overflow (R120). -/
theorem commandEffect_derr {i : Instr} {r : Regs} (hi : i.lane = .dec) (hsymbol : i.isEnd = false) :
    (commandEffect i r).regs.derr = r.derr ∨ (r.derr = .ok ∧ ((commandEffect i r).regs.derr = .fault .invalidChar ∨
      (commandEffect i r).regs.derr = .fault .overflow)) := by
  cases i with
  | encb d => cases hi
  | ence rsv => cases hi
  | decc c =>
    rcases deccEffect_derr_cases c r with h | ⟨hok, k, rfl | rfl, h⟩ <;> rw [commandEffect_decc]
    · exact .inl h
    · exact .inr ⟨hok, .inl (by rw [h, quiet_regs])⟩
    · exact .inr ⟨hok, .inr (by rw [h, quiet_regs])⟩
  | dece rsv => cases hsymbol

/-- Settles O22, from the frame of the effect. -/
theorem decoderCommandsFrame : Obligations.DecoderCommandsFrame := by
  intro i s t hi ht
  rw [eq_commit_of_exec ht]
  obtain ⟨hdv0, hdv1⟩ := commandEffect_values hi s.regs
  exact ⟨commandEffect_regs_of_dec hi s.regs, hdv0, hdv1, commandEffect_derr hi,
    ⟨_, rfl, fun b hb => hi ▸ lane_of_mem_commandEffect_beats hb⟩, rfl, rfl, rfl, rfl, rfl, rfl⟩

theorem execWord_encode (r : Regs) (i : Instr) : execWord r (encode i) = commandEffect i r := by
  rw [execWord, decode_encode]

/-- Settles O23: the word of a command stands for the command, and every command commits its effect. -/
theorem everyCommandCompletes : Obligations.EveryCommandCompletes := by
  intro i s
  rw [execWord_encode]
  exact ⟨length_commandEffect_beats_le i s.regs, exec_eq_commit i s⟩

theorem deccEffect_derr_eq_invalidChar_iff (c : Byte) {r : Regs} (hok : r.derr = .ok) :
    (deccEffect c r).regs.derr = .fault .invalidChar ↔ lookup c = none := by
  cases hc : lookup c with
  | none => simp [deccEffect_notFound c r hok hc]
  | some v =>
    rcases DecPhase.cases r.dph with hp | hp | hp
    · simp [deccEffect_zero c v r hok hc hp, hok]
    · simp [deccEffect_one c v r hok hc hp, hok]
    · rw [deccEffect_two c v r hok hc hp]
      split <;> simp [hok]

theorem deccEffect_derr_eq_overflow_iff (c : Byte) {r : Regs} (hok : r.derr = .ok) :
    (deccEffect c r).regs.derr = .fault .overflow ↔
      r.dph = .two ∧ ∃ v, lookup c = some v ∧ 65535 < val3 r.dv0 r.dv1 (digitVal v) := by
  cases hc : lookup c with
  | none => simp [deccEffect_notFound c r hok hc]
  | some v =>
    rcases DecPhase.cases r.dph with hp | hp | hp
    · simp [deccEffect_zero c v r hok hc hp, hok, hp]
    · simp [deccEffect_one c v r hok hc hp, hok, hp]
    · by_cases hlt : 65535 < val3 r.dv0 r.dv1 (digitVal v)
      · simp [deccEffect_two_overflow c v r hok hc hp hlt, hp, hlt]
      · simp [deccEffect_two_inRange c v r hok hc hp (Nat.not_lt.1 hlt), hok, hlt]

theorem deccEffect_derr_ne_dangling (c : Byte) {r : Regs} (hok : r.derr = .ok) :
    (deccEffect c r).regs.derr ≠ .fault .dangling := by
  rcases deccEffect_derr_cases c r with h | ⟨-, k, hk, h⟩ <;> rw [h]
  · rw [hok]
    exact nofun
  · rcases hk with rfl | rfl <;> exact nofun

/-- With no fault recorded, the status `DECE` reports (R121). -/
theorem deceEffect_status {r : Regs} (hok : r.derr = .ok) :
    ∃ st symbols, deceEffect r = endDecoder st symbols r ∧ (st = .fault .dangling ↔ r.dph = .one) ∧
      (st = .fault .overflow ↔ r.dph = .two ∧ 255 < val2 r.dv0 r.dv1) ∧ st ≠ .fault .invalidChar := by
  rcases DecPhase.cases r.dph with hp | hp | hp
  · exact ⟨_, _, deceEffect_zero r hok hp, by simp [hp]⟩
  · exact ⟨_, _, deceEffect_one r hok hp, by simp [hp]⟩
  · by_cases hlt : 255 < val2 r.dv0 r.dv1
    · exact ⟨_, _, deceEffect_two_overflow r hok hp hlt, by simp [hp, hlt]⟩
    · exact ⟨_, _, deceEffect_two_inRange r hok hp (Nat.not_lt.1 hlt), by simp [hp, hlt]⟩

/-- The last beat of a closed message is its end beat (R121). -/
theorem getLast?_commit_endDecoder (s : State) (st : Status) (symbols : List Byte) (r : Regs) :
    (s.commit (endDecoder st symbols r)).oq.getLast? = some (.endOf .dec st) := by
  rw [State.commit_oq, endDecoder_beats, ← List.append_assoc, List.getLast?_concat]

/-- Settles O24: `DECC` records what its code and its value call for, and the end beat of `DECE` is the last. -/
theorem faultsAreRaisedExactly : Obligations.FaultsAreRaisedExactly := by
  intro s ch rsv hok
  obtain ⟨st, symbols, he, hdangling, hoverflow, hinvalid⟩ := deceEffect_status hok
  refine ⟨⟨_, exec_decc ch s, deccEffect_derr_eq_invalidChar_iff ch hok, deccEffect_derr_eq_overflow_iff ch hok,
    deccEffect_derr_ne_dangling ch hok⟩, ⟨_, exec_dece rsv s, deceEffect_derr s.regs, ?_⟩⟩
  rw [he, getLast?_commit_endDecoder]
  simp only [ne_eq, Option.some.injEq, Beat.endOf.injEq, true_and]
  exact ⟨hdangling, hoverflow, hinvalid⟩

/-- Settles O25: of all a `DECC` can do, only recording a fault changes `DERR`, and it is quiet. -/
theorem faultEntryChangesOnlyTheFaultRegister : Obligations.FaultEntryChangesOnlyTheFaultRegister := by
  intro s t ch ht hne
  obtain rfl := eq_commit_of_exec ht
  rcases deccEffect_derr_cases ch s.regs with h | ⟨hok, k, hk, h⟩
  · exact absurd h hne
  · rw [commandEffect_decc, h, State.commit_quiet]
    exact ⟨hok, hk.imp (congrArg _) (congrArg _), rfl⟩

end Sys2Proof.Machine
end

section
/-! Proofs about command streams (44_message_semantics.md section 1): executing commands is `RUN`, and what `RUN`
makes of a recorded fault (60_exceptions.md section 3). -/

namespace Sys2Proof.Machine

/-! ### `RUN` (R131) -/

section Run
variable (r : Regs) (i : Instr) (is : List Instr)

@[simp] theorem run_nil : run r [] = ⟨r, []⟩ := rfl
@[simp] theorem run_cons_regs : (run r (i :: is)).regs = (run (commandEffect i r).regs is).regs := rfl
@[simp] theorem run_cons_beats :
    (run r (i :: is)).beats = (commandEffect i r).beats ++ (run (commandEffect i r).regs is).beats := rfl

end Run

theorem run_singleton (r : Regs) (i : Instr) : run r [i] = commandEffect i r := by
  simp [run]

theorem runWords_eq_run (ws : List CmdWord) (r : Regs) : runWords r ws = run r (ws.map decode) := by
  induction ws generalizing r with
  | nil => rfl
  | cons w ws ih => rw [runWords, ih, List.map_cons, run, execWord]

theorem execAll_eq_commit_run (is : List Instr) (s : State) :
    execAll is s = .next (s.commit (run s.regs is)) := by
  induction is generalizing s with
  | nil => exact congrArg _ (s.commit_quiet s.regs).symm
  | cons i is ih =>
    rw [execAll, exec_eq_commit]
    simp only [ih, State.commit, run, List.append_assoc]

/-- Settles O29, by induction on the commands and on the words. -/
theorem executingCommandsIsRun : Obligations.ExecutingCommandsIsRun :=
  ⟨execAll_eq_commit_run, runWords_eq_run⟩

/-- While a fault is recorded, `DECC` does nothing, however many follow (R156). -/
theorem run_decc_of_fault {r : Regs} {k : FaultKind} (h : r.derr = .fault k) (cs : List Byte) :
    run r (cs.map Instr.decc) = ⟨r, []⟩ := by
  induction cs with
  | nil => rfl
  | cons c cs ih =>
    rw [List.map_cons, run, commandEffect_decc, deccEffect_fault c r k h, quiet_regs, quiet_beats, ih]
    rfl

/-- A message in which a fault is recorded ends with that fault and no more data (R156, R159). -/
theorem run_decc_dece_of_fault {r : Regs} {k : FaultKind} (h : r.derr = .fault k) (cs : List Byte) (rsv : Byte) :
    run r (cs.map Instr.decc ++ [Instr.dece rsv]) = endDecoder (.fault k) [] r := by
  rw [run_append, run_decc_of_fault h, run_singleton, commandEffect_dece, deceEffect_fault r k h]
  rfl

/-- Settles O26, through `RUN` from a register file with the fault. -/
theorem recordedFaultIsReportedOnce : Obligations.RecordedFaultIsReportedOnce := by
  intro s k cs rsv h
  rw [execAll_eq_commit_run, execAll_eq_commit_run, run_decc_of_fault h, run_decc_dece_of_fault h]
  exact ⟨congrArg _ (s.commit_quiet s.regs), rfl⟩

end Sys2Proof.Machine
end

section
/-! Proofs that the lanes do not see each other, and that what a lane's registers do not hold is never seen
(10_state.md section 6, 44_message_semantics.md section 2). -/

namespace Sys2Proof.Machine

/-! ### The lanes do not see each other (R135) -/

theorem laneEq_refl (l : Lane) (r : Regs) : r.laneEq l r := by
  cases l
  · exact ⟨rfl, rfl⟩
  · exact ⟨rfl, rfl, rfl, rfl⟩

theorem laneEq_trans {l : Lane} {r r' r'' : Regs} (h : r.laneEq l r') (h' : r'.laneEq l r'') : r.laneEq l r'' := by
  cases l with
  | enc => exact ⟨h.1.trans h'.1, h.2.trans h'.2⟩
  | dec =>
    obtain ⟨hp, h0, h1, he⟩ := h
    obtain ⟨hp', h0', h1', he'⟩ := h'
    exact ⟨hp.trans hp', h0.trans h0', h1.trans h1', he.trans he'⟩

/-- Two register files agree on what is live of a lane's registers (R22, R26): the part of `Regs.LiveEq` that is
about the lane. -/
def Regs.LiveOn (l : Lane) (r r' : Regs) : Prop :=
  match l with
  | .enc => r.eph = r'.eph ∧ (r.eph = .one → r.ehi = r'.ehi)
  | .dec => r.derr = r'.derr ∧
      (r.derr = .ok → r.dph = r'.dph ∧ (r.dph ≠ .zero → r.dv0 = r'.dv0) ∧ (r.dph = .two → r.dv1 = r'.dv1))

theorem liveEq_iff {r r' : Regs} : r.LiveEq r' ↔ r.LiveOn .enc r' ∧ r.LiveOn .dec r' := by
  constructor
  · rintro ⟨heph, hehi, hderr, hdph, hdv0, hdv1⟩
    exact ⟨⟨heph, hehi⟩, hderr, fun hok => ⟨hdph hok, hdv0 hok, hdv1 hok⟩⟩
  · rintro ⟨⟨heph, hehi⟩, hderr, h⟩
    exact ⟨heph, hehi, hderr, fun hok => (h hok).1, fun hok => (h hok).2.1, fun hok => (h hok).2.2⟩

theorem liveOn_of_laneEq {l : Lane} {r r' : Regs} (h : r.laneEq l r') : r.LiveOn l r' := by
  cases l with
  | enc => exact ⟨h.1, fun _ => h.2⟩
  | dec =>
    obtain ⟨hdph, hdv0, hdv1, hderr⟩ := h
    exact ⟨hderr, fun _ => ⟨hdph, fun _ => hdv0, fun _ => hdv1⟩⟩

/-- Idle lanes agree on what is live: nothing is but that they are idle (R35). -/
theorem liveOn_of_idle {l : Lane} {r r' : Regs} (h : r.idle l) (h' : r'.idle l) : r.LiveOn l r' := by
  cases l with
  | enc =>
    have heph : r.eph = .zero := h
    refine ⟨heph.trans h'.symm, fun hone => ?_⟩
    rw [heph] at hone
    cases hone
  | dec =>
    obtain ⟨hp, hok⟩ := h
    obtain ⟨hp', hok'⟩ := h'
    refine ⟨hok.trans hok'.symm, fun _ => ⟨hp.trans hp'.symm, fun hne => absurd hp hne, fun htwo => ?_⟩⟩
    rw [hp] at htwo
    cases htwo

/-- Agreement on what is live passes to register files that have the same registers of the lane. -/
theorem liveOn_congr {l : Lane} {q q' r r' : Regs} (h : r.LiveOn l r') (hq : q.laneEq l r) (hq' : q'.laneEq l r') :
    q.LiveOn l q' := by
  cases l with
  | enc =>
    obtain ⟨heph, hehi⟩ := hq
    obtain ⟨heph', hehi'⟩ := hq'
    simpa only [Regs.LiveOn, heph, hehi, heph', hehi'] using h
  | dec =>
    obtain ⟨hdph, hdv0, hdv1, hderr⟩ := hq
    obtain ⟨hdph', hdv0', hdv1', hderr'⟩ := hq'
    simpa only [Regs.LiveOn, hdph, hdv0, hdv1, hderr, hdph', hdv0', hdv1', hderr'] using h

/-- What two register files that agree on what is live of a lane make of a command: the same beats, agreement
again, and the same registers of the lane if they had the same before. -/
def SameOn (l : Lane) (r r' : Regs) (e e' : Effect) : Prop :=
  e.beats = e'.beats ∧ e.regs.LiveOn l e'.regs ∧ (r.laneEq l r' → e.regs.laneEq l e'.regs)

theorem encbEffect_sameOn (d : Byte) {r r' : Regs} (h : r.LiveOn .enc r') :
    SameOn .enc r r' (encbEffect d r) (encbEffect d r') := by
  obtain ⟨heph, hehi⟩ := h
  rcases EncPhase.cases r.eph with hp | hp
  · rw [encbEffect_zero d r hp, encbEffect_zero d r' (heph ▸ hp)]
    exact ⟨rfl, ⟨rfl, fun _ => rfl⟩, fun _ => ⟨rfl, rfl⟩⟩
  · rw [encbEffect_one d r hp, encbEffect_one d r' (heph ▸ hp), hehi hp]
    exact ⟨rfl, ⟨rfl, nofun⟩, fun _ => ⟨rfl, rfl⟩⟩

theorem enceEffect_sameOn {r r' : Regs} (h : r.LiveOn .enc r') :
    SameOn .enc r r' (enceEffect r) (enceEffect r') := by
  obtain ⟨heph, hehi⟩ := h
  rcases EncPhase.cases r.eph with hp | hp
  · rw [enceEffect_zero r hp, enceEffect_zero r' (heph ▸ hp)]
    exact ⟨rfl, ⟨rfl, nofun⟩, fun hlane => ⟨rfl, hlane.2⟩⟩
  · rw [enceEffect_one r hp, enceEffect_one r' (heph ▸ hp), hehi hp]
    exact ⟨rfl, ⟨rfl, nofun⟩, fun hlane => ⟨rfl, hlane.2⟩⟩

theorem deccEffect_sameOn (c : Byte) {r r' : Regs} (h : r.LiveOn .dec r') :
    SameOn .dec r r' (deccEffect c r) (deccEffect c r') := by
  obtain ⟨hderr, hlive⟩ := h
  rcases Status.cases r.derr with hok | ⟨k, hk⟩
  case inr =>
    rw [deccEffect_fault c r k hk, deccEffect_fault c r' k (hderr ▸ hk)]
    exact ⟨rfl, ⟨hderr, hlive⟩, id⟩
  have hok' : r'.derr = .ok := hderr ▸ hok
  obtain ⟨hdph, hdv0, hdv1⟩ := hlive hok
  cases hc : lookup c with
  | none =>
    rw [deccEffect_notFound c r hok hc, deccEffect_notFound c r' hok' hc]
    exact ⟨rfl, ⟨rfl, nofun⟩, fun ⟨hp, h0, h1, _⟩ => ⟨hp, h0, h1, rfl⟩⟩
  | some v =>
    rcases DecPhase.cases r.dph with hp | hp | hp
    · rw [deccEffect_zero c v r hok hc hp, deccEffect_zero c v r' hok' hc (hdph ▸ hp)]
      exact ⟨rfl, ⟨hderr, fun _ => ⟨rfl, fun _ => rfl, nofun⟩⟩, fun ⟨_, _, h1, he⟩ => ⟨rfl, rfl, h1, he⟩⟩
    · have h0 : r.dv0 = r'.dv0 := hdv0 (by rw [hp]; exact nofun)
      rw [deccEffect_one c v r hok hc hp, deccEffect_one c v r' hok' hc (hdph ▸ hp)]
      exact ⟨rfl, ⟨hderr, fun _ => ⟨rfl, fun _ => h0, fun _ => rfl⟩⟩, fun ⟨_, _, _, he⟩ => ⟨rfl, h0, rfl, he⟩⟩
    · have h0 : r.dv0 = r'.dv0 := hdv0 (by rw [hp]; exact nofun)
      have h1 : r.dv1 = r'.dv1 := hdv1 hp
      rw [deccEffect_two c v r hok hc hp, deccEffect_two c v r' hok' hc (hdph ▸ hp), h0, h1]
      split
      · exact ⟨rfl, ⟨rfl, nofun⟩, fun _ => ⟨hdph, rfl, rfl, rfl⟩⟩
      · exact ⟨rfl, ⟨hderr, fun _ => ⟨rfl, fun hne => absurd rfl hne, nofun⟩⟩, fun _ => ⟨rfl, rfl, rfl, hderr⟩⟩

/-- Ending a decoder message with the same status and symbols. -/
theorem endDecoder_sameOn (st : Status) (symbols : List Byte) (r r' : Regs) :
    SameOn .dec r r' (endDecoder st symbols r) (endDecoder st symbols r') :=
  ⟨rfl, ⟨rfl, fun _ => ⟨rfl, fun hne => absurd rfl hne, nofun⟩⟩, fun ⟨_, h0, h1, _⟩ => ⟨rfl, h0, h1, rfl⟩⟩

theorem deceEffect_sameOn {r r' : Regs} (h : r.LiveOn .dec r') :
    SameOn .dec r r' (deceEffect r) (deceEffect r') := by
  obtain ⟨hderr, hlive⟩ := h
  rcases Status.cases r.derr with hok | ⟨k, hk⟩
  case inr =>
    rw [deceEffect_fault r k hk, deceEffect_fault r' k (hderr ▸ hk)]
    exact endDecoder_sameOn _ _ r r'
  have hok' : r'.derr = .ok := hderr ▸ hok
  obtain ⟨hdph, hdv0, hdv1⟩ := hlive hok
  rcases DecPhase.cases r.dph with hp | hp | hp
  · rw [deceEffect_zero r hok hp, deceEffect_zero r' hok' (hdph ▸ hp)]
    exact endDecoder_sameOn _ _ r r'
  · rw [deceEffect_one r hok hp, deceEffect_one r' hok' (hdph ▸ hp)]
    exact endDecoder_sameOn _ _ r r'
  · rw [deceEffect_two r hok hp, deceEffect_two r' hok' (hdph ▸ hp), hdv0 (by rw [hp]; exact nofun), hdv1 hp]
    split
    · exact endDecoder_sameOn _ _ r r'
    · exact endDecoder_sameOn _ _ r r'

/-- What a command emits, and does to its own lane, is a function of what is live of its own lane (R131, R135). -/
theorem commandEffect_sameOn {i : Instr} {r r' : Regs} (h : r.LiveOn i.lane r') :
    SameOn i.lane r r' (commandEffect i r) (commandEffect i r') := by
  cases i with
  | encb d => exact encbEffect_sameOn d h
  | ence rsv => exact enceEffect_sameOn h
  | decc c => exact deccEffect_sameOn c h
  | dece rsv => exact deceEffect_sameOn h

/-- Every command, of either lane, keeps agreement on what is live of a lane. -/
theorem commandEffect_liveOn {l : Lane} {r r' : Regs} (i : Instr) (h : r.LiveOn l r') :
    (commandEffect i r).regs.LiveOn l (commandEffect i r').regs := by
  by_cases hi : i.lane = l
  · subst hi
    obtain ⟨-, hlive, -⟩ := commandEffect_sameOn h
    exact hlive
  · exact liveOn_congr h (commandEffect_regs_of_ne hi r) (commandEffect_regs_of_ne hi r')

theorem onLane_append (l : Lane) (bs bs' : List Beat) : onLane l (bs ++ bs') = onLane l bs ++ onLane l bs' :=
  List.filter_append ..

/-- The beats of a command are all of its lane. -/
theorem onLane_commandEffect_of_eq {i : Instr} {l : Lane} (hi : i.lane = l) (r : Regs) :
    onLane l (commandEffect i r).beats = (commandEffect i r).beats :=
  List.filter_eq_self.2 fun _ hb => decide_eq_true ((lane_of_mem_commandEffect_beats hb).trans hi)

/-- A command has no beats of the other lane. -/
theorem onLane_commandEffect_of_ne {i : Instr} {l : Lane} (hi : i.lane ≠ l) (r : Regs) :
    onLane l (commandEffect i r).beats = [] :=
  List.filter_eq_nil_iff.2 fun _ hb hl => hi ((lane_of_mem_commandEffect_beats hb).symm.trans (of_decide_eq_true hl))

theorem ofLane_cons_of_eq {i : Instr} {l : Lane} (hi : i.lane = l) (is : List Instr) :
    ofLane l (i :: is) = i :: ofLane l is :=
  List.filter_cons_of_pos (decide_eq_true hi)

theorem ofLane_cons_of_ne {i : Instr} {l : Lane} (hi : i.lane ≠ l) (is : List Instr) :
    ofLane l (i :: is) = ofLane l is :=
  List.filter_cons_of_neg fun h => hi (of_decide_eq_true h)

/-- From register files with the same registers of a lane, all the commands and the lane's commands alone give
the same beats and registers of the lane (R135). -/
theorem run_onLane {l : Lane} (is : List Instr) {r r' : Regs} (h : r.laneEq l r') :
    onLane l (run r is).beats = (run r' (ofLane l is)).beats ∧
      (run r is).regs.laneEq l (run r' (ofLane l is)).regs := by
  induction is generalizing r r' with
  | nil => exact ⟨rfl, h⟩
  | cons i is ih =>
    rw [run_cons_beats, run_cons_regs, onLane_append]
    by_cases hi : i.lane = l
    · subst hi
      obtain ⟨hbeats, -, hregs⟩ := commandEffect_sameOn (liveOn_of_laneEq h)
      obtain ⟨ihbeats, ihregs⟩ := ih (hregs h)
      rw [ofLane_cons_of_eq rfl, run_cons_beats, onLane_commandEffect_of_eq rfl, hbeats, ihbeats]
      exact ⟨rfl, ihregs⟩
    · rw [ofLane_cons_of_ne hi, onLane_commandEffect_of_ne hi]
      exact ih (laneEq_trans (commandEffect_regs_of_ne hi r) h)

/-- Settles O32: the beats of a lane are those of its own commands. -/
theorem lanesDoNotInterfere : Obligations.LanesDoNotInterfere := by
  refine ⟨fun l r is => run_onLane is (laneEq_refl l r), fun l r is js h => ?_⟩
  rw [(run_onLane is (laneEq_refl l r)).1, (run_onLane js (laneEq_refl l r)).1, h]

/-! ### Registers that hold nothing are never seen (R35, U1) -/

/-- Agreement on what is live of a lane is enough for the same beats of the lane (R35, R131). -/
theorem onLane_run_of_liveOn {l : Lane} (is : List Instr) {r r' : Regs} (h : r.LiveOn l r') :
    onLane l (run r is).beats = onLane l (run r' is).beats := by
  induction is generalizing r r' with
  | nil => rfl
  | cons i is ih =>
    rw [run_cons_beats, run_cons_beats, onLane_append, onLane_append, ih (commandEffect_liveOn i h)]
    by_cases hi : i.lane = l
    · subst hi
      rw [(commandEffect_sameOn h).1]
    · rw [onLane_commandEffect_of_ne hi, onLane_commandEffect_of_ne hi]

theorem commandEffect_of_liveEq {i : Instr} {r r' : Regs} (h : r.LiveEq r') :
    (commandEffect i r).beats = (commandEffect i r').beats ∧
      (commandEffect i r).regs.LiveEq (commandEffect i r').regs := by
  obtain ⟨henc, hdec⟩ := liveEq_iff.1 h
  refine ⟨?_, liveEq_iff.2 ⟨commandEffect_liveOn i henc, commandEffect_liveOn i hdec⟩⟩
  cases hi : i.lane with
  | enc => exact (commandEffect_sameOn (hi ▸ henc)).1
  | dec => exact (commandEffect_sameOn (hi ▸ hdec)).1

theorem run_of_liveEq (is : List Instr) {r r' : Regs} (h : r.LiveEq r') :
    (run r is).beats = (run r' is).beats ∧ (run r is).regs.LiveEq (run r' is).regs := by
  induction is generalizing r r' with
  | nil => exact ⟨rfl, h⟩
  | cons i is ih =>
    obtain ⟨hbeats, hlive⟩ := commandEffect_of_liveEq (i := i) h
    obtain ⟨ihbeats, ihlive⟩ := ih hlive
    rw [run_cons_beats, run_cons_beats, hbeats, ihbeats]
    exact ⟨rfl, ihlive⟩

theorem reset_idle (l : Lane) : Regs.reset.idle l := by
  cases l
  · exact rfl
  · exact ⟨rfl, rfl⟩

/-- A register file with both lanes idle gives the beats one from reset gives (R35). -/
theorem run_beats_of_idle {r : Regs} (henc : r.idle .enc) (hdec : r.idle .dec) (is : List Instr) :
    (run r is).beats = (run Regs.reset is).beats :=
  (run_of_liveEq is (liveEq_iff.2
    ⟨liveOn_of_idle henc (reset_idle .enc), liveOn_of_idle hdec (reset_idle .dec)⟩)).1

/-- Settles O30: what is live decides, and nothing but the phases is live at reset. -/
theorem deadRegistersAreUnobservable : Obligations.DeadRegistersAreUnobservable := by
  refine ⟨fun _ _ is => run_of_liveEq is, fun _ _ _ is => run_beats_of_idle ?_ ?_ is⟩
  · exact reset_idle .enc
  · exact reset_idle .dec

/-- An END command leaves its lane idle (R35, R111, R121). -/
theorem commandEffect_idle_of_end {i : Instr} (hi : i.isEnd = true) (r : Regs) :
    (commandEffect i r).regs.idle i.lane := by
  cases i with
  | encb d => cases hi
  | ence rsv =>
    obtain ⟨digits, -, h⟩ := enceEffect_eq_endEncoder r
    rw [commandEffect_ence, h]
    rfl
  | decc c => cases hi
  | dece rsv =>
    obtain ⟨st, symbols, -, h⟩ := deceEffect_eq_endDecoder r
    rw [commandEffect_dece, h]
    exact ⟨rfl, rfl⟩

/-- Settles O31: idle lanes agree on what is live. -/
theorem idleLaneBehavesAsFromReset : Obligations.IdleLaneBehavesAsFromReset := by
  refine ⟨fun s t rsv h => ?_, fun s t rsv h => ?_, reset_idle,
    fun l r is h => onLane_run_of_liveOn is (liveOn_of_idle h (reset_idle l))⟩
  · rw [eq_commit_of_exec h]
    exact commandEffect_idle_of_end (i := .ence rsv) rfl s.regs
  · rw [eq_commit_of_exec h]
    exact commandEffect_idle_of_end (i := .dece rsv) rfl s.regs

end Sys2Proof.Machine
end

section
/-! Proofs about what every run keeps: one end beat for each END command (44_message_semantics.md section 2), the
beats that can occur (30_encoding.md section 3) and the values in the decoder's registers (10_state.md section 3). -/

namespace Sys2Proof.Machine

/-! ### End beats (R132) -/

theorem filter_isEnd_dataBeats (l : Lane) (symbols : List Byte) : (dataBeats l symbols).filter Beat.isEnd = [] := by
  refine List.filter_eq_nil_iff.2 fun b hb => ?_
  obtain ⟨x, -, rfl⟩ := List.mem_map.1 hb
  exact Bool.false_ne_true

/-- A command emits one end beat if it is an END command, and none if it is not. -/
theorem length_filter_isEnd_commandEffect (i : Instr) (r : Regs) :
    ((commandEffect i r).beats.filter Beat.isEnd).length = ([i].filter Instr.isEnd).length := by
  cases hi : i.isEnd with
  | false =>
    obtain ⟨symbols, -, h⟩ := commandEffect_beats_of_symbol hi r
    rw [h, filter_isEnd_dataBeats, List.filter_singleton, hi]
    rfl
  | true =>
    obtain ⟨st, symbols, -, h⟩ := commandEffect_beats_of_end hi r
    rw [h, List.filter_append, filter_isEnd_dataBeats, List.filter_singleton, List.filter_singleton, hi]
    rfl

/-- Settles O33, by induction on the commands of the lane. -/
theorem oneEndBeatPerEndCommand : Obligations.OneEndBeatPerEndCommand := by
  intro l r is
  rw [(run_onLane is (laneEq_refl l r)).1]
  induction ofLane l is generalizing r with
  | nil => rfl
  | cons i is ih =>
    rw [run_cons_beats, List.filter_append, List.length_append, length_filter_isEnd_commandEffect, ih,
      ← List.length_append, ← List.filter_append, List.singleton_append]

/-! ### The beats that can occur (R68) -/

theorem legal_of_mem_dataBeats_enc {digits : List Digit} {b : Beat}
    (hb : b ∈ dataBeats .enc (digits.map unlookup)) : b.Legal := by
  obtain ⟨x, hx, rfl⟩ := List.mem_map.1 hb
  obtain ⟨i, -, rfl⟩ := List.mem_map.1 hx
  exact ⟨i, rfl⟩

/-- Lane 1 may emit any beat. -/
theorem legal_of_lane_dec {b : Beat} (h : b.lane = .dec) : b.Legal := by
  rcases b with ⟨l, d⟩ | ⟨l, st⟩ <;> cases h <;> trivial

theorem legal_of_mem_commandEffect_beats {i : Instr} {r : Regs} {b : Beat} (hb : b ∈ (commandEffect i r).beats) :
    b.Legal := by
  cases i with
  | encb d =>
    obtain ⟨digits, -, h⟩ := encbEffect_beats d r
    exact legal_of_mem_dataBeats_enc (h ▸ hb)
  | ence rsv =>
    obtain ⟨digits, -, h⟩ := enceEffect_eq_endEncoder r
    rw [commandEffect_ence, h] at hb
    rcases List.mem_append.1 hb with hdata | hend
    · exact legal_of_mem_dataBeats_enc hdata
    · rw [List.mem_singleton.1 hend]
      rfl
  | decc c => exact legal_of_lane_dec (lane_of_mem_commandEffect_beats hb)
  | dece rsv => exact legal_of_lane_dec (lane_of_mem_commandEffect_beats hb)

/-- Settles O42: the alphabet and the bytes give the data words, the statuses the end words. -/
theorem onlyTheListedBeatsOccur : Obligations.OnlyTheListedBeatsOccur := by
  refine ⟨fun i r b => legal_of_mem_commandEffect_beats, fun b hb => ?_⟩
  rcases b with ⟨_ | _, d⟩ | ⟨_ | _, st⟩
  case data.enc =>
    obtain ⟨i, rfl⟩ := hb
    exact .inl ⟨i, (dataWord_toNat .enc _).trans (Nat.zero_add _)⟩
  case data.dec =>
    have h : (Beat.data .dec d).word.toNat = 0x800 + d.toNat := dataWord_toNat .dec d
    exact .inr (.inr (.inl (by omega)))
  case endOf.enc =>
    obtain rfl : st = .ok := hb
    exact .inr (.inl rfl)
  case endOf.dec =>
    refine .inr (.inr (.inr ?_))
    rcases st with _ | _ | _ | _ <;> decide

/-! ### The registers every command leaves (R28, R29) -/

theorem digitVal_isDigit (v : Digit) : Val6.isDigit (digitVal v) := by
  rw [Val6.isDigit, digitVal_toNat]
  exact Nat.le_of_lt_succ v.isLt

/-- `DECC` keeps the invariant of the registers. -/
theorem deccEffect_reachable (c : Byte) {r : Regs} (h : r.Reachable) : (deccEffect c r).regs.Reachable := by
  obtain ⟨hderr, hdv0, hdv1⟩ := h
  rcases deccEffect_cases c r with ⟨_, -, he⟩ | ⟨-, -, he⟩ | ⟨v, -, -, -, he⟩ | ⟨v, -, -, hp, he⟩ |
    ⟨_, -, -, -, -, he⟩ | ⟨_, -, -, -, -, he⟩ <;> rw [he]
  · exact ⟨hderr, hdv0, hdv1⟩
  · exact ⟨nofun, hdv0, hdv1⟩
  · exact ⟨hderr, fun _ => digitVal_isDigit v, nofun⟩
  · exact ⟨hderr, fun _ => hdv0 (by rw [hp]; exact nofun), fun _ => digitVal_isDigit v⟩
  · exact ⟨nofun, hdv0, hdv1⟩
  · exact ⟨hderr, fun hne => absurd rfl hne, nofun⟩

/-- The invariant of the registers is about lane 1 alone. -/
theorem reachable_of_laneEq {r r' : Regs} (h : r.laneEq .dec r') (hr : r'.Reachable) : r.Reachable := by
  obtain ⟨hdph, hdv0, hdv1, hderr⟩ := h
  exact ⟨hderr ▸ hr.derr, hdph ▸ hdv0 ▸ hr.dv0, hdph ▸ hdv1 ▸ hr.dv1⟩

/-- A lane 1 that is idle holds no value and no fault. -/
theorem reachable_of_idle {r : Regs} (h : r.idle .dec) : r.Reachable := by
  obtain ⟨hp, hok⟩ := h
  refine ⟨by rw [hok]; exact nofun, fun hne => absurd hp hne, fun htwo => ?_⟩
  rw [hp] at htwo
  cases htwo

theorem commandEffect_reachable (i : Instr) {r : Regs} (h : r.Reachable) : (commandEffect i r).regs.Reachable := by
  cases hi : i.lane with
  | enc => exact reachable_of_laneEq (commandEffect_regs_of_enc hi r) h
  | dec =>
    cases i with
    | encb d => cases hi
    | ence rsv => cases hi
    | decc c => exact deccEffect_reachable c h
    | dece rsv => exact reachable_of_idle (commandEffect_idle_of_end (i := .dece rsv) rfl r)

theorem run_reachable (is : List Instr) {r : Regs} (h : r.Reachable) : (run r is).regs.Reachable := by
  induction is generalizing r with
  | nil => exact h
  | cons i is ih => exact ih (commandEffect_reachable i h)

/-- Settles O54, from the invariant of the registers. -/
theorem reachableDecoderRegisters : Obligations.ReachableDecoderRegisters := by
  intro is
  obtain ⟨hderr, hdv0, hdv1⟩ := run_reachable is (reachable_of_idle (reset_idle .dec))
  refine ⟨?_, hdv0, hdv1⟩
  rcases hd : (run Regs.reset is).regs.derr with _ | _ | _ | _
  · exact .inl rfl
  · exact .inr (.inl rfl)
  · exact absurd hd hderr
  · exact .inr (.inr rfl)

end Sys2Proof.Machine
end

section
/-! Proofs about the source's two functions (44_message_semantics.md section 3): the texts that decode are the
encodings, whole groups concatenate, and nothing after an unrecognized character matters. -/

namespace Sys2Proof.Machine

/-! ### Texts that decode (R141) -/

/-- A final pair that succeeds is the encoding of its byte. -/
theorem encodeBytes_of_decodePair_eq_ok {t0 t1 : Byte} {bs : List Byte} (h : decodePair t0 t1 = .ok bs) :
    encodeBytes bs = [t0, t1] := by
  obtain ⟨v0, v1, h0, h1, hle, rfl⟩ := decodePair_eq_ok_iff.1 h
  rw [encodeBytes_singleton, dig2_val2 hle, unlookup_of_lookup_eq_some h0, unlookup_of_lookup_eq_some h1]

theorem pairValue_splitBytes {x : Nat} (h : x < 65536) :
    pairValue (splitBytes x).1 (splitBytes x).2 = BitVec.ofNat 16 x := by
  exact congrArg (BitVec.ofNat 16) ((splitBytes_eq_iff h).1 rfl)

/-- A triple that succeeds is the encoding of its two bytes. -/
theorem encodeBytes_append_of_decodeTriple_eq_ok {t0 t1 t2 : Byte} {ds : List Byte}
    (h : decodeTriple t0 t1 t2 = .ok ds) (bs : List Byte) :
    encodeBytes (ds ++ bs) = t0 :: t1 :: t2 :: encodeBytes bs := by
  obtain ⟨v0, v1, v2, h0, h1, h2, hle, rfl⟩ := decodeTriple_eq_ok_iff.1 h
  simp only [List.cons_append, List.nil_append, encodeBytes_cons_cons]
  rw [pairValue_splitBytes (Nat.lt_succ_of_le hle), dig3_val3 hle, unlookup_of_lookup_eq_some h0,
    unlookup_of_lookup_eq_some h1, unlookup_of_lookup_eq_some h2]

/-- `ENCODE` inverts `DECODE` on the texts that decode (R141). -/
theorem encodeBytes_of_decodeText_eq_ok {cs bs : List Byte} (h : decodeText cs = .ok bs) : encodeBytes bs = cs := by
  refine decodeText_ok_induction (motive := fun cs bs => encodeBytes bs = cs) rfl ?pair ?triple h
  case pair => exact fun t0 t1 ds => encodeBytes_of_decodePair_eq_ok
  case triple =>
    intro t0 t1 t2 ds cs bs hds ih
    rw [encodeBytes_append_of_decodeTriple_eq_ok hds, ih]

/-- Settles O38: each of the two functions inverts the other. -/
theorem everyDecodableTextIsCanonical : Obligations.EveryDecodableTextIsCanonical :=
  fun bs _ => ⟨encodeBytes_of_decodeText_eq_ok, fun h => h ▸ decodeText_encodeBytes bs⟩

/-! ### Concatenation (R142) -/

theorem decodeText_of_triple_err {t0 t1 t2 : Byte} {k : FaultKind} (cs : List Byte)
    (h : decodeTriple t0 t1 t2 = .err k) : decodeText (t0 :: t1 :: t2 :: cs) = .err k := by
  rw [decodeText, h]

theorem MessageResult.after_after (m : MessageResult) (xs ys : List Byte) :
    (m.after ys).after xs = m.after (xs ++ ys) := by
  cases m with
  | ok zs => exact congrArg MessageResult.ok (List.append_assoc xs ys zs).symm
  | err k => rfl

theorem encodeBytes_append (xs ys : List Byte) (h : xs.length % 2 = 0) :
    encodeBytes (xs ++ ys) = encodeBytes xs ++ encodeBytes ys := by
  induction xs using List.twoStepInduction with
  | nil => rfl
  | singleton u => cases h
  | cons_cons hi lo xs ih _ =>
    have hxs : xs.length % 2 = 0 := (Nat.add_mod_right xs.length 2).symm.trans h
    simp only [List.cons_append, encodeBytes_cons_cons, ih hxs]

theorem decodeText_append (xs ys : List Byte) (h : xs.length % 3 = 0) :
    decodeText (xs ++ ys) =
      match decodeText xs with
      | .err k => .err k
      | .ok bs => (decodeText ys).after bs := by
  induction xs using decodeText.induct with
  | case1 => cases hys : decodeText ys <;> simp [decodeText_nil, hys, MessageResult.after]
  | case2 t0 => cases h
  | case3 t0 t1 => cases h
  | case4 t0 t1 t2 xs k herr =>
    simp only [List.cons_append, decodeText_of_triple_err _ herr]
  | case5 t0 t1 t2 xs ds hds ih =>
    have hxs : xs.length % 3 = 0 := (Nat.add_mod_right xs.length 3).symm.trans h
    simp only [List.cons_append, decodeText_of_triple_ok _ hds, ih hxs]
    cases decodeText xs with
    | err k => rfl
    | ok bs => exact MessageResult.after_after (decodeText ys) ds bs

/-- Settles O41: whole groups stay groups. Two single bytes make one pair, and a character after a whole pair
makes a triple, which are the counterexamples. -/
theorem concatenationOfWholeGroups : Obligations.ConcatenationOfWholeGroups :=
  ⟨encodeBytes_append, decodeText_append, ⟨[0], [0], by decide⟩, ⟨[0x30, 0x30], [0x30], [0], by decide⟩⟩

/-! ### The first unrecognized character (R86) -/

/-- A first group with an unrecognized character, whole or cut short, decides the text. -/
theorem decodeText_of_notFound_in_first_group {start after : List Byte} {a : Byte} (hstart : start.length ≤ 2)
    (ha : lookup a = none) : decodeText (start ++ a :: after) = .err .invalidChar := by
  have triple {t0 t1 t2 : Byte} (cs : List Byte)
      (h : lookup t0 = none ∨ lookup t1 = none ∨ lookup t2 = none) :
      decodeText (t0 :: t1 :: t2 :: cs) = .err .invalidChar :=
    decodeText_of_triple_err cs (decodeTriple_of_notFound h)
  rcases start with _ | ⟨t0, _ | ⟨t1, _ | ⟨t2, start⟩⟩⟩
  · rcases after with _ | ⟨t1, _ | ⟨t2, cs⟩⟩
    · exact decodeLeftover_of_notFound ha
    · exact decodePair_of_notFound (.inl ha)
    · exact triple cs (.inl ha)
  · rcases after with _ | ⟨t2, cs⟩
    · exact decodePair_of_notFound (.inr ha)
    · exact triple cs (.inr (.inl ha))
  · exact triple after (.inr (.inr ha))
  · simp only [List.length_cons] at hstart
    omega

theorem decodeText_append_notFound (start after after' : List Byte) {a b : Byte} (ha : lookup a = none)
    (hb : lookup b = none) : decodeText (start ++ a :: after) = decodeText (start ++ b :: after') := by
  induction start using decodeText.induct with
  | case1 =>
    rw [decodeText_of_notFound_in_first_group (by simp) ha, decodeText_of_notFound_in_first_group (by simp) hb]
  | case2 t0 =>
    rw [decodeText_of_notFound_in_first_group (by simp) ha, decodeText_of_notFound_in_first_group (by simp) hb]
  | case3 t0 t1 =>
    rw [decodeText_of_notFound_in_first_group (by simp) ha, decodeText_of_notFound_in_first_group (by simp) hb]
  | case4 t0 t1 t2 start k herr => simp only [List.cons_append, decodeText_of_triple_err _ herr]
  | case5 t0 t1 t2 start ds hds ih => simp only [List.cons_append, decodeText_of_triple_ok _ hds, ih]

/-- No code from 0x80 up is a character of the alphabet (R84, R86). -/
theorem lookup_of_0x80_le {a : Byte} (h : 0x80 ≤ a.toNat) : lookup a = none := by
  refine lookup_eq_none a (.inr (by omega)) (.inr (by omega)) fun hmem => ?_
  have hlow : punctuationCodes.all (fun c => decide (c.toNat < 0x80)) = true := by decide
  have := of_decide_eq_true (List.all_eq_true.1 hlow a hmem)
  omega

/-- Settles O28: the groups before the character decide, or its own group does. -/
theorem nothingAfterAnUnrecognizedCharacterMatters : Obligations.NothingAfterAnUnrecognizedCharacterMatters :=
  ⟨fun start after after' _ _ ha hb => decodeText_append_notFound start after after' ha hb,
    fun _ => lookup_of_0x80_le⟩

end Sys2Proof.Machine
end

section
/-! Proofs about messages (44_message_semantics.md section 2): the beats of one message from an idle lane, then of
every message of a command stream, by induction on the lane's commands. -/

namespace Sys2Proof.Machine

/-! ### One decoder message (R134) -/

/-- The status the end beat of a decoder message reports, given the message's result (R132, R151). -/
def MessageResult.status : MessageResult → Status
  | .ok _ => .ok
  | .err k => .fault k

@[simp] theorem MessageResult.status_ok (bs : List Byte) : (MessageResult.ok bs).status = .ok := rfl
@[simp] theorem MessageResult.status_err (k : FaultKind) : (MessageResult.err k).status = .fault k := rfl

@[simp] theorem MessageResult.status_after (m : MessageResult) (bs : List Byte) : (m.after bs).status = m.status := by
  cases m <;> rfl

/-- Of a text that decodes, all groups come before a failing one. -/
theorem decodedBytes_of_decodeText_eq_ok {cs bs : List Byte} (h : decodeText cs = .ok bs) : decodedBytes cs = bs := by
  refine decodeText_ok_induction (motive := fun cs bs => decodedBytes cs = bs) rfl ?pair ?triple h
  case pair =>
    intro t0 t1 ds hds
    rw [decodedBytes, hds]
  case triple =>
    intro t0 t1 t2 ds cs bs hds ih
    rw [decodedBytes, hds, ih]

/-- The first unrecognized character of a message, with no fault recorded before, ends its data (R120, R156). -/
theorem run_decc_notFound {r : Regs} (hok : r.derr = .ok) {c : Byte} (hc : lookup c = none) (cs : List Byte)
    (rsv : Byte) :
    (run r (.decc c :: (cs.map Instr.decc ++ [Instr.dece rsv]))).beats = [Beat.endOf .dec (.fault .invalidChar)] := by
  rw [run_cons_beats, commandEffect_decc, deccEffect_notFound c r hok hc, quiet_beats, quiet_regs,
    run_decc_dece_of_fault rfl]
  rfl

/-- Two found characters, from an idle lane 1, are held (R120). -/
theorem run_decc_decc_of_found {r : Regs} (h : r.idle .dec) {t0 t1 : Byte} {v0 v1 : Digit}
    (h0 : lookup t0 = some v0) (h1 : lookup t1 = some v1) (is : List Instr) :
    ∃ r' : Regs, r'.derr = .ok ∧ r'.dph = .two ∧ r'.dv0 = digitVal v0 ∧ r'.dv1 = digitVal v1 ∧
      run r (.decc t0 :: .decc t1 :: is) = run r' is := by
  obtain ⟨hp, hok⟩ := h
  refine ⟨{ r with dph := .two, dv0 := digitVal v0, dv1 := digitVal v1 }, hok, rfl, rfl, rfl, ?_⟩
  simp [run, deccEffect_zero t0 v0, deccEffect_one t1 v1, hp, hok, h0, h1]

/-- Two characters of which one is not found, from an idle lane 1, end the message's data (R120, R155). -/
theorem run_decc_decc_of_notFound {r : Regs} (h : r.idle .dec) {t0 t1 : Byte}
    (hnot : lookup t0 = none ∨ lookup t1 = none) (cs : List Byte) (rsv : Byte) :
    (run r (.decc t0 :: .decc t1 :: (cs.map Instr.decc ++ [Instr.dece rsv]))).beats =
      [Beat.endOf .dec (.fault .invalidChar)] := by
  obtain ⟨hp, hok⟩ := h
  cases h0 : lookup t0 with
  | none => exact run_decc_notFound hok h0 (t1 :: cs) rsv
  | some v0 =>
    have h1 : lookup t1 = none := hnot.resolve_left (by rw [h0]; exact nofun)
    rw [run_cons_beats, commandEffect_decc, deccEffect_zero t0 v0 r hok h0 hp, quiet_beats, quiet_regs,
      List.nil_append]
    exact run_decc_notFound (r := { r with dph := .one, dv0 := digitVal v0 }) hok h1 cs rsv

/-- A single character left over, from an idle lane 1 (R121, R153). -/
theorem run_decc_dece {r : Regs} (h : r.idle .dec) (t0 rsv : Byte) :
    (run r [.decc t0, .dece rsv]).beats = [Beat.endOf .dec (decodeLeftover t0).status] := by
  obtain ⟨hp, hok⟩ := h
  cases h0 : lookup t0 with
  | none =>
    rw [decodeLeftover_of_notFound h0]
    exact run_decc_notFound hok h0 [] rsv
  | some v0 =>
    simp [decodeLeftover_of_found h0, run, deccEffect_zero t0 v0 r hok h0 hp, deceEffect_one, hok]

/-- A final pair, from an idle lane 1 (R121). -/
theorem run_decc_decc_dece {r : Regs} (h : r.idle .dec) (t0 t1 rsv : Byte) :
    (run r [.decc t0, .decc t1, .dece rsv]).beats =
      dataBeats .dec (decodedBytes [t0, t1]) ++ [Beat.endOf .dec (decodePair t0 t1).status] := by
  have notFound (hnot : lookup t0 = none ∨ lookup t1 = none) : (run r [.decc t0, .decc t1, .dece rsv]).beats =
      dataBeats .dec (decodedBytes [t0, t1]) ++ [Beat.endOf .dec (decodePair t0 t1).status] := by
    rw [decodedBytes, decodePair_of_notFound hnot]
    exact run_decc_decc_of_notFound h hnot [] rsv
  rcases h0 : lookup t0 with _ | v0
  · exact notFound (.inl h0)
  rcases h1 : lookup t1 with _ | v1
  · exact notFound (.inr h1)
  obtain ⟨r', hok, hp, hdv0, hdv1, hrun⟩ := run_decc_decc_of_found h h0 h1 [Instr.dece rsv]
  rw [hrun, run_singleton, commandEffect_dece, deceEffect_two r' hok hp, decodedBytes, decodePair_of_found h0 h1,
    hdv0, hdv1]
  cases ovf2 (val2 (digitVal v0) (digitVal v1)) <;> rfl

/-- A triple that fails, from an idle lane 1, ends the data of its message (R120, R155, R156). -/
theorem run_of_decodeTriple_eq_err {r : Regs} (h : r.idle .dec) {t0 t1 t2 : Byte} {k : FaultKind}
    (herr : decodeTriple t0 t1 t2 = .err k) (cs : List Byte) (rsv : Byte) :
    (run r (.decc t0 :: .decc t1 :: .decc t2 :: (cs.map Instr.decc ++ [Instr.dece rsv]))).beats =
      [Beat.endOf .dec (.fault k)] := by
  have invalid (hnot : lookup t0 = none ∨ lookup t1 = none ∨ lookup t2 = none) : k = .invalidChar :=
    MessageResult.err.inj (herr.symm.trans (decodeTriple_of_notFound hnot))
  rcases h0 : lookup t0 with _ | v0
  · rw [invalid (.inl h0)]
    exact run_decc_decc_of_notFound h (.inl h0) (t2 :: cs) rsv
  rcases h1 : lookup t1 with _ | v1
  · rw [invalid (.inr (.inl h1))]
    exact run_decc_decc_of_notFound h (.inr h1) (t2 :: cs) rsv
  obtain ⟨r', hok, hp, hdv0, hdv1, hrun⟩ :=
    run_decc_decc_of_found h h0 h1 (.decc t2 :: (cs.map Instr.decc ++ [Instr.dece rsv]))
  rw [hrun]
  rcases h2 : lookup t2 with _ | v2
  · rw [invalid (.inr (.inr h2))]
    exact run_decc_notFound hok h2 cs rsv
  · rw [decodeTriple_of_found h0 h1 h2] at herr
    rw [run_cons_beats, commandEffect_decc, deccEffect_two t2 v2 r' hok h2 hp, hdv0, hdv1]
    split at herr
    next hovf =>
      obtain rfl := MessageResult.err.inj herr
      rw [if_pos hovf, quiet_beats, quiet_regs, run_decc_dece_of_fault rfl]
      rfl
    next => cases herr

/-- A decoder message from an idle lane 1 emits the bytes of the groups before the failing one, and the end beat
reports what the failing group is, if there is one (R134). -/
theorem run_decMessage_beats (cs : List Byte) (rsv : Byte) {r : Regs} (h : r.idle .dec) :
    (run r (cs.map Instr.decc ++ [Instr.dece rsv])).beats =
      dataBeats .dec (decodedBytes cs) ++ [Beat.endOf .dec (decodeText cs).status] := by
  induction cs using decodeText.induct generalizing r with
  | case1 => exact congrArg Effect.beats ((run_singleton r (.dece rsv)).trans (deceEffect_zero r h.2 h.1))
  | case2 t0 => exact run_decc_dece h t0 rsv
  | case3 t0 t1 => exact run_decc_decc_dece h t0 t1 rsv
  | case4 t0 t1 t2 cs k herr =>
    rw [decodeText_of_triple_err cs herr, decodedBytes, herr]
    exact run_of_decodeTriple_eq_err h herr cs rsv
  | case5 t0 t1 t2 cs ds hds ih =>
    obtain ⟨r', hidle, hrun⟩ := run_decc_decc_decc h hds (cs.map Instr.decc ++ [Instr.dece rsv])
    rw [decodeText_of_triple_ok cs hds, MessageResult.status_after, decodedBytes, hds]
    calc (run r ((t0 :: t1 :: t2 :: cs).map Instr.decc ++ [Instr.dece rsv])).beats
        = dataBeats .dec ds ++ (run r' (cs.map Instr.decc ++ [Instr.dece rsv])).beats := congrArg Effect.beats hrun
      _ = dataBeats .dec (ds ++ decodedBytes cs) ++ [Beat.endOf .dec (decodeText cs).status] := by
        rw [ih hidle, dataBeats_append, List.append_assoc]

/-- An encoder message from an idle lane 0 emits `ENCODE` of its input and an end beat of status 0, whatever its
reserved field (R64, R133). -/
theorem run_encMessage_beats (bs : List Byte) (rsv : Byte) {r : Regs} (h : r.idle .enc) :
    (run r (bs.map Instr.encb ++ [Instr.ence rsv])).beats =
      dataBeats .enc (encodeBytes bs) ++ [Beat.endOf .enc .ok] := by
  obtain ⟨hi, hrun⟩ := run_encMessage bs h
  calc (run r (bs.map Instr.encb ++ [Instr.ence rsv])).beats
      = (run r (encMessage bs)).beats := by rw [encMessage, run_append, run_append]; rfl
    _ = dataBeats .enc (encodeBytes bs) ++ [Beat.endOf .enc .ok] := by rw [hrun]

/-! ### One message of either lane (R132) -/

/-- The symbol command of a lane (R62). -/
def symbolCommand : Lane → Byte → Instr
  | .enc => .encb
  | .dec => .decc

/-- The END command of a lane (R62). -/
def endCommand : Lane → Byte → Instr
  | .enc => .ence
  | .dec => .dece

/-- The payload of a lane's message with the given input (R132 to R134). -/
def messagePayload : Lane → List Byte → List Byte
  | .enc => encodeBytes
  | .dec => decodedBytes

/-- The status of a lane's message with the given input (R132 to R134). -/
def messageStatus : Lane → List Byte → Status
  | .enc, _ => .ok
  | .dec, cs => (decodeText cs).status

theorem eq_symbolCommand {l : Lane} {i : Instr} (hi : i.lane = l) (hsymbol : i.isEnd = false) :
    i = symbolCommand l i.data := by
  subst hi
  cases i with
  | encb d => rfl
  | ence rsv => cases hsymbol
  | decc c => rfl
  | dece rsv => cases hsymbol

theorem eq_endCommand {l : Lane} {i : Instr} (hi : i.lane = l) (hend : i.isEnd = true) :
    i = endCommand l i.data := by
  subst hi
  cases i with
  | encb d => cases hend
  | ence rsv => rfl
  | decc c => cases hend
  | dece rsv => rfl

@[simp] theorem symbolCommand_lane (l : Lane) (x : Byte) : (symbolCommand l x).lane = l := by cases l <;> rfl
@[simp] theorem symbolCommand_isEnd (l : Lane) (x : Byte) : (symbolCommand l x).isEnd = false := by cases l <;> rfl
@[simp] theorem symbolCommand_data (l : Lane) (x : Byte) : (symbolCommand l x).data = x := by cases l <;> rfl
@[simp] theorem endCommand_lane (l : Lane) (x : Byte) : (endCommand l x).lane = l := by cases l <;> rfl
@[simp] theorem endCommand_isEnd (l : Lane) (x : Byte) : (endCommand l x).isEnd = true := by cases l <;> rfl

/-- A message from an idle lane emits its payload and one end beat with its status (R132 to R134). -/
theorem run_message_beats (l : Lane) (xs : List Byte) (rsv : Byte) {r : Regs} (h : r.idle l) :
    (run r (xs.map (symbolCommand l) ++ [endCommand l rsv])).beats =
      dataBeats l (messagePayload l xs) ++ [Beat.endOf l (messageStatus l xs)] := by
  cases l with
  | enc => exact run_encMessage_beats xs rsv h
  | dec => exact run_decMessage_beats xs rsv h

/-- A message leaves its lane idle (R35). -/
theorem run_message_idle (l : Lane) (xs : List Byte) (rsv : Byte) (r : Regs) :
    (run r (xs.map (symbolCommand l) ++ [endCommand l rsv])).regs.idle l := by
  have h := commandEffect_idle_of_end (endCommand_isEnd l rsv) (run r (xs.map (symbolCommand l))).regs
  rw [endCommand_lane l] at h
  rw [run_append, run_singleton]
  exact h

/-- Payload and status together are the result the source's functions give (R132 to R134). -/
theorem messageResult_enc (bs : List Byte) :
    messageResult (messagePayload .enc bs) (messageStatus .enc bs) = .ok (encodeBytes bs) := rfl

theorem messageResult_dec (cs : List Byte) :
    messageResult (messagePayload .dec cs) (messageStatus .dec cs) = decodeText cs := by
  rw [messagePayload, messageStatus]
  cases h : decodeText cs with
  | ok bs => exact congrArg MessageResult.ok (decodedBytes_of_decodeText_eq_ok h)
  | err k => rfl

/-! ### Reading messages off a beat stream (R132, R179) -/

@[simp] theorem lane_data (l : Lane) (d : Byte) : (Beat.data l d).lane = l := rfl
@[simp] theorem lane_endOf (l : Lane) (st : Status) : (Beat.endOf l st).lane = l := rfl
@[simp] theorem isEnd_data (l : Lane) (d : Byte) : (Beat.data l d).isEnd = false := rfl
@[simp] theorem isEnd_endOf (l : Lane) (st : Status) : (Beat.endOf l st).isEnd = true := rfl

@[simp] theorem onLane_data_cons (l l' : Lane) (d : Byte) (bs : List Beat) :
    onLane l (.data l' d :: bs) = if l' = l then .data l' d :: onLane l bs else onLane l bs := by
  by_cases hl : l' = l <;> simp [onLane, hl]

@[simp] theorem onLane_endOf_cons (l l' : Lane) (st : Status) (bs : List Beat) :
    onLane l (.endOf l' st :: bs) = if l' = l then .endOf l' st :: onLane l bs else onLane l bs := by
  by_cases hl : l' = l <;> simp [onLane, hl]

/-- Beats of the other lane are passed over (R179). -/
theorem laneMessages_onLane (l : Lane) (sofar : List Byte) (bs : List Beat) :
    laneMessages l sofar (onLane l bs) = laneMessages l sofar bs := by
  induction bs generalizing sofar with
  | nil => rfl
  | cons b bs ih =>
    rcases b with ⟨l', d⟩ | ⟨l', st⟩ <;> by_cases hl : l' = l <;> simp [laneMessages, hl, ih]

/-- The first message of a stream, and the others after it. -/
theorem laneMessages_message_append (l : Lane) (sofar payload : List Byte) (st : Status) (bs : List Beat) :
    laneMessages l sofar (dataBeats l payload ++ [Beat.endOf l st] ++ bs) =
      (sofar ++ payload, st) :: laneMessages l [] bs := by
  induction payload generalizing sofar with
  | nil => simp [laneMessages]
  | cons x payload ih => simpa [laneMessages] using ih (sofar ++ [x])

/-- One message is read for each end beat of the lane. -/
theorem length_laneMessages (l : Lane) (sofar : List Byte) (bs : List Beat) :
    (laneMessages l sofar bs).length = ((onLane l bs).filter Beat.isEnd).length := by
  induction bs generalizing sofar with
  | nil => rfl
  | cons b bs ih =>
    rcases b with ⟨l', d⟩ | ⟨l', st⟩ <;> by_cases hl : l' = l <;> simp [List.filter_cons, laneMessages, hl, ih]

/-- A message still open gives no result (R132, R176). -/
theorem laneMessages_open (l : Lane) (xs : List Byte) (r : Regs) :
    laneMessages l [] (run r (xs.map (symbolCommand l))).beats = [] := by
  have hends : (ofLane l (xs.map (symbolCommand l))).filter Instr.isEnd = [] := by
    refine List.filter_eq_nil_iff.2 fun i hi => ?_
    obtain ⟨x, -, rfl⟩ := List.mem_map.1 (List.mem_of_mem_filter hi)
    rw [symbolCommand_isEnd l]
    exact Bool.false_ne_true
  rw [← List.length_eq_zero_iff, length_laneMessages, oneEndBeatPerEndCommand, hends, List.length_nil]

/-! ### Every message of a command stream (R132 to R136) -/

theorem messageInputs_cons_of_ne {l : Lane} {i : Instr} (hi : i.lane ≠ l) (sofar : List Byte) (is : List Instr) :
    messageInputs l sofar (i :: is) = messageInputs l sofar is := by
  rw [messageInputs, if_neg hi]

theorem messageInputs_symbolCommand_cons (l : Lane) (x : Byte) (sofar : List Byte) (is : List Instr) :
    messageInputs l sofar (symbolCommand l x :: is) = messageInputs l (sofar ++ [x]) is := by
  simp [messageInputs]

theorem messageInputs_endCommand_cons (l : Lane) (rsv : Byte) (sofar : List Byte) (is : List Instr) :
    messageInputs l sofar (endCommand l rsv :: is) = sofar :: messageInputs l [] is := by
  simp [messageInputs]

/-- A command is of the other lane, or a symbol command of this one, or an END command of this one. -/
theorem lane_cases (l : Lane) (i : Instr) :
    i.lane ≠ l ∨ (∃ x, i = symbolCommand l x) ∨ ∃ rsv, i = endCommand l rsv := by
  by_cases hi : i.lane = l
  · cases hend : i.isEnd with
    | false => exact .inr (.inl ⟨_, eq_symbolCommand hi hend⟩)
    | true => exact .inr (.inr ⟨_, eq_endCommand hi hend⟩)
  · exact .inl hi

/-- The messages of a lane, given the input `sofar` of the one already open: each has the payload and the status
of its own input (R132 to R136). -/
theorem laneMessages_run (l : Lane) (is : List Instr) (sofar : List Byte) {r : Regs} (h : r.idle l) :
    laneMessages l [] (run r (sofar.map (symbolCommand l) ++ ofLane l is)).beats =
      (messageInputs l sofar is).map fun xs => (messagePayload l xs, messageStatus l xs) := by
  induction is generalizing sofar r with
  | nil =>
    rw [show ofLane l [] = [] from rfl, List.append_nil]
    exact laneMessages_open l sofar r
  | cons i is ih =>
    rcases lane_cases l i with hi | ⟨x, rfl⟩ | ⟨rsv, rfl⟩
    · rw [ofLane_cons_of_ne hi, messageInputs_cons_of_ne hi, ih sofar h]
    · rw [ofLane_cons_of_eq (symbolCommand_lane l x), messageInputs_symbolCommand_cons, ← ih (sofar ++ [x]) h,
        List.map_append, List.append_assoc]
      rfl
    · rw [ofLane_cons_of_eq (endCommand_lane l rsv), messageInputs_endCommand_cons, List.append_cons, run_append,
        run_message_beats l sofar rsv h, laneMessages_message_append, List.nil_append, List.map_cons,
        ← ih [] (run_message_idle l sofar rsv r)]
      rfl

/-- From an idle lane each closed message has the payload and the status of its own input, whatever the other
lane does (R132 to R136). -/
theorem laneMessages_run_of_idle {l : Lane} {r : Regs} (h : r.idle l) (is : List Instr) :
    laneMessages l [] (run r is).beats =
      (messageInputs l [] is).map fun xs => (messagePayload l xs, messageStatus l xs) := by
  rw [← laneMessages_onLane, (run_onLane is (laneEq_refl l r)).1]
  exact laneMessages_run l is [] h

theorem laneResults_run_of_idle {l : Lane} {r : Regs} (h : r.idle l) (is : List Instr) :
    laneResults l (run r is).beats =
      (messageInputs l [] is).map fun xs => messageResult (messagePayload l xs) (messageStatus l xs) := by
  rw [laneResults, laneMessages_run_of_idle h, List.map_map]
  rfl

/-- Settles O36: reset leaves both lanes idle. -/
theorem everyMessageHasItsOwnResult : Obligations.EveryMessageHasItsOwnResult := by
  intro is
  rw [laneResults_run_of_idle (reset_idle .enc), laneResults_run_of_idle (reset_idle .dec)]
  simp only [messageResult_enc, messageResult_dec, true_and]

/-- The messages of a lane are told by the lane's commands alone (R132, R135). -/
theorem messageInputs_ofLane (l : Lane) (sofar : List Byte) (is : List Instr) :
    messageInputs l sofar (ofLane l is) = messageInputs l sofar is := by
  induction is generalizing sofar with
  | nil => rfl
  | cons i is ih =>
    rcases lane_cases l i with hi | ⟨x, rfl⟩ | ⟨rsv, rfl⟩
    · rw [ofLane_cons_of_ne hi, messageInputs_cons_of_ne hi, ih]
    · rw [ofLane_cons_of_eq (symbolCommand_lane l x), messageInputs_symbolCommand_cons,
        messageInputs_symbolCommand_cons, ih]
    · rw [ofLane_cons_of_eq (endCommand_lane l rsv), messageInputs_endCommand_cons, messageInputs_endCommand_cons, ih]

theorem messageInputs_message (l : Lane) (xs sofar : List Byte) (rsv : Byte) :
    messageInputs l sofar (xs.map (symbolCommand l) ++ [endCommand l rsv]) = [sofar ++ xs] := by
  induction xs generalizing sofar with
  | nil => simp [messageInputs]
  | cons x xs ih =>
    rw [List.map_cons, List.cons_append, messageInputs_symbolCommand_cons, ih, List.append_assoc, List.singleton_append]

/-- Commands whose part in a lane is one message make one message of the lane (R135). -/
theorem messageInputs_of_ofLane {l : Lane} {is : List Instr} {xs : List Byte} {rsv : Byte}
    (h : ofLane l is = xs.map (symbolCommand l) ++ [endCommand l rsv]) : messageInputs l [] is = [xs] := by
  rw [← messageInputs_ofLane, h, messageInputs_message, List.nil_append]

/-- Settles O34: the one message of lane 0 has the result of its input. -/
theorem encoderMessageComputesEncode : Obligations.EncoderMessageComputesEncode := by
  intro r is bs rsv hidle his
  rw [laneResults_run_of_idle hidle, messageInputs_of_ofLane (l := .enc) his]
  rfl

/-- Settles O35: the one message of lane 1 has the payload and the status of its input. -/
theorem decoderMessageComputesDecode : Obligations.DecoderMessageComputesDecode := by
  intro r is cs rsv hidle his
  rw [laneResults_run_of_idle hidle, laneMessages_run_of_idle hidle, messageInputs_of_ofLane (l := .dec) his]
  exact ⟨congrArg (fun m => [m]) (messageResult_dec cs), rfl⟩

/-! ### How many data beats a message has (R113, R123) -/

theorem length_filter_data_message (l : Lane) (payload : List Byte) (st : Status) :
    ((dataBeats l payload ++ [Beat.endOf l st]).filter fun b => !b.isEnd).length = payload.length := by
  rw [List.filter_append, List.filter_eq_self.2, List.filter_eq_nil_iff.2, List.append_nil, length_dataBeats]
  · intro b hb
    rw [List.mem_singleton.1 hb]
    exact Bool.false_ne_true
  · intro b hb
    obtain ⟨x, -, rfl⟩ := List.mem_map.1 hb
    rfl

/-- Settles O43: the data beats of a message carry its payload. -/
theorem dataBeatsPerMessage : Obligations.DataBeatsPerMessage := by
  refine ⟨fun r bs h => ?_, fun r cs bs h hcs => ?_⟩
  · rw [encMessage, run_encMessage_beats bs 0 h, length_filter_data_message, length_encodeBytes]
  · rw [run_decMessage_beats_of_ok hcs h, length_filter_data_message, length_of_decodeText_eq_ok hcs]

end Sys2Proof.Machine
end

section
/-! Proofs about one edge of the clock (30_encoding.md sections 1 and 3, 70_reset_and_hazards.md section 1): the
state an edge leads to, field by field, the four things a step can be, and what holds after every edge. -/

namespace Sys2Proof.Machine

/-! ### The state after an edge without reset -/

/-- What the command accepted at an edge does; nothing, if none is accepted (R51, R61). -/
def State.edgeEffect (s : State) (p : PinsIn) : Effect :=
  if s.accepts p then commandEffect (decode p.cmd) s.regs else quiet s.regs

/-- The state after an edge without reset at which no duty is broken: `step_of_brokenHold_eq_none` ties it to the
model's step. -/
def State.afterEdge (s : State) (p : PinsIn) : State := (s.pastEdge p).commit (s.edgeEffect p)

section AfterEdge
variable (s : State) (p : PinsIn)

theorem State.edgeEffect_of_accepts (h : s.accepts p = true) :
    s.edgeEffect p = commandEffect (decode p.cmd) s.regs :=
  if_pos h

theorem State.edgeEffect_of_not_accepts (h : s.accepts p = false) : s.edgeEffect p = quiet s.regs :=
  if_neg (Bool.eq_false_iff.1 h)

@[simp] theorem State.afterEdge_regs : (s.afterEdge p).regs = (s.edgeEffect p).regs := rfl
@[simp] theorem State.afterEdge_oq : (s.afterEdge p).oq = (s.deliver p).oq ++ (s.edgeEffect p).beats := rfl
@[simp] theorem State.afterEdge_delivered : (s.afterEdge p).delivered = (s.deliver p).delivered := rfl
@[simp] theorem State.afterEdge_outWait : (s.afterEdge p).outWait = (s.deliver p).outWait := rfl
@[simp] theorem State.afterEdge_cmdWait :
    (s.afterEdge p).cmdWait = if s.accepts p then .since s.edge else s.cmdWait := s.pastEdge_cmdWait p
@[simp] theorem State.afterEdge_held :
    (s.afterEdge p).held = if p.cmdValid && !s.accepts p then some p.cmd else none := rfl
@[simp] theorem State.afterEdge_edge : (s.afterEdge p).edge = s.edge + 1 := s.pastEdge_edge p
@[simp] theorem State.afterEdge_inputs : (s.afterEdge p).inputs = s.inputs := s.pastEdge_inputs p
@[simp] theorem State.afterEdge_out : (s.afterEdge p).out = s.out ++ (s.edgeEffect p).beats := by
  rw [State.afterEdge, State.commit_out, State.pastEdge_out]

theorem State.afterEdge_of_accepts (h : s.accepts p = true) :
    s.afterEdge p = (s.pastEdge p).commit (commandEffect (decode p.cmd) s.regs) := by
  rw [State.afterEdge, s.edgeEffect_of_accepts p h]

theorem State.afterEdge_of_not_accepts (h : s.accepts p = false) : s.afterEdge p = s.pastEdge p := by
  rw [State.afterEdge, s.edgeEffect_of_not_accepts p h, State.commit_quiet, ← s.pastEdge_regs p]

/-- The script of inputs passes through an edge. -/
theorem State.afterEdge_with_inputs (l : List PinsIn) :
    ({ s with inputs := l } : State).afterEdge p = { s.afterEdge p with inputs := l } := by
  rw [State.afterEdge, State.pastEdge_with_inputs]
  rfl

end AfterEdge

/-! ### What a delivery does (R69) -/

theorem State.delivers_iff {s : State} {p : PinsIn} :
    s.delivers p = true ↔ s.outValid = true ∧ p.outReady = true := by
  rw [State.delivers, Bool.and_eq_true]

theorem State.not_delivers_iff {s : State} {p : PinsIn} :
    s.delivers p = false ↔ s.outValid = false ∨ p.outReady = false := by
  rw [State.delivers, Bool.and_eq_false_iff]

/-- At an edge that delivers, the oldest pending beat goes to the host. -/
theorem State.deliver_of_delivers {s : State} {p : PinsIn} (h : s.delivers p = true) : ∃ b,
    s.oq = b :: (s.deliver p).oq ∧ s.outWord = b.word ∧ (s.deliver p).delivered = s.delivered ++ [b] := by
  obtain ⟨b, rest, hoq, hword⟩ := State.outWord_of_outValid (State.delivers_iff.1 h).1
  rcases s.deliver_cases p with ⟨hnot, -⟩ | ⟨b', rest', -, hoq', hd⟩
  · rw [h] at hnot
    cases hnot
  · obtain ⟨rfl, rfl⟩ := List.cons.inj (hoq.symm.trans hoq')
    exact ⟨b, by rw [hd, hoq], hword, by rw [hd]⟩

/-- At an edge that delivers nothing, the queue and the record of deliveries stay as they are. -/
theorem State.deliver_of_not_delivers {s : State} {p : PinsIn} (h : s.delivers p = false) :
    (s.deliver p).oq = s.oq ∧ (s.deliver p).delivered = s.delivered := by
  rcases s.deliver_cases p with ⟨-, hd⟩ | ⟨b, rest, hdel, -⟩
  · rw [hd]
    exact ⟨rfl, rfl⟩
  · rw [h] at hdel
    cases hdel

/-- While a beat is pending and none is delivered, its wait goes on. -/
theorem State.deliver_outWait_of_not_delivers {s : State} {p : PinsIn} (h : s.delivers p = false)
    (hoq : s.oq ≠ []) : (s.deliver p).outWait = s.outWait := by
  obtain ⟨b, rest, hcons⟩ := List.exists_cons_of_ne_nil hoq
  simp only [State.deliver, h, hcons]

/-- Deliveries are recorded one after the other. -/
theorem State.delivered_isPrefix_deliver (s : State) (p : PinsIn) : s.delivered <+: (s.deliver p).delivered := by
  cases h : s.delivers p with
  | false => rw [(State.deliver_of_not_delivers h).2]
  | true =>
    obtain ⟨b, -, -, hd⟩ := State.deliver_of_delivers h
    rw [hd]
    exact List.prefix_append _ _

/-! ### When the pins are 1 (R61, R69) -/

theorem State.accepts_iff {s : State} {p : PinsIn} :
    s.accepts p = true ↔ p.cmdValid = true ∧ s.cmdReady = true := by
  rw [State.accepts, Bool.and_eq_true]

theorem State.not_accepts_iff {s : State} {p : PinsIn} :
    s.accepts p = false ↔ p.cmdValid = false ∨ s.cmdReady = false := by
  rw [State.accepts, Bool.and_eq_false_iff]

theorem State.cmdReady_iff {s : State} :
    s.cmdReady = true ↔ s.cmdWait.done Config.cmdStall s.edge = true ∧ hasRoom s.oq = true := by
  rw [State.cmdReady, Bool.and_eq_true]

theorem State.outValid_iff {s : State} :
    s.outValid = true ↔ s.oq ≠ [] ∧ s.outWait.done Config.outLatency s.edge = true := by
  cases h : s.oq <;> simp [State.outValid, h]

/-- What is on offer, by the oldest pending beat. -/
theorem State.outWord_of_head? {s : State} {b : Beat} (hv : s.outValid = true) (hb : s.oq.head? = some b) :
    s.outWord = b.word := by
  obtain ⟨b', rest, hoq, hword⟩ := State.outWord_of_outValid hv
  rw [hoq, List.head?_cons, Option.some.injEq] at hb
  rw [hword, hb]

/-! ### The host's duty to hold (R61, U11) -/

theorem State.brokenHold_eq_some_iff {s : State} {p : PinsIn} {w : CmdWord} :
    s.brokenHold p = some w ↔ s.held = some w ∧ (p.cmdValid = false ∨ p.cmd ≠ w) := by
  rw [State.brokenHold]
  cases h : s.held with
  | none => exact iff_of_false nofun fun hw => nomatch hw.1
  | some w' =>
    by_cases hkept : p.cmdValid = true ∧ p.cmd = w'
    · obtain ⟨hvalid, rfl⟩ := hkept
      simp [hvalid]
    · have hbroken : p.cmdValid = false ∨ p.cmd ≠ w' := by
        rwa [not_and_or, Bool.not_eq_true] at hkept
      simp only [Bool.and_eq_true, beq_iff_eq, hkept, if_false, Option.some.injEq]
      exact ⟨fun hw => ⟨hw, hw ▸ hbroken⟩, fun hw => hw.1⟩

/-- After an edge the host keeps its duty with pins that still offer what it offered there. -/
theorem State.afterEdge_holdKept_of_offers (s : State) {p q : PinsIn}
    (h : p.cmdValid = true → q.cmdValid = true ∧ q.cmd = p.cmd) : (s.afterEdge p).holdKept q := by
  rw [State.holdKept, State.afterEdge_held]
  split
  next hp =>
    obtain ⟨hvalid, hcmd⟩ := h (Bool.and_eq_true_iff.1 hp).1
    exact .inr ⟨by rw [hcmd], hvalid⟩
  next => exact .inl rfl

theorem State.afterEdge_holdKept (s : State) (p : PinsIn) : (s.afterEdge p).holdKept p :=
  s.afterEdge_holdKept_of_offers fun hvalid => ⟨hvalid, rfl⟩

/-! ### The four kinds of step -/

section Step
variable {s : State} {p : PinsIn} {rest : List PinsIn}

/-- With no edge to come a step does nothing (log entry 1). -/
theorem step_of_inputs_nil (hi : s.inputs = []) : step s = .next s := by
  rw [step, hi]

theorem step_of_rst (hi : s.inputs = p :: rest) (hr : p.rst = true) :
    step s = .next ({ s with inputs := rest } : State).resetEdge := by
  simp only [step, hi, clockEdge, hr, if_true]

theorem step_of_brokenHold_eq_some {w : CmdWord} (hi : s.inputs = p :: rest) (hr : p.rst = false)
    (hb : s.brokenHold p = some w) : step s = .refused (.stalledCommandChanged w) := by
  simp [step, hi, clockEdge, hr, hb]

/-- An edge at which a command is accepted executes it on what the edge leaves (R51, R61). -/
theorem step_of_accepts (hi : s.inputs = p :: rest) (hr : p.rst = false) (hb : s.brokenHold p = none)
    (ha : s.accepts p = true) : step s = exec (decode p.cmd) (({ s with inputs := rest } : State).pastEdge p) := by
  simp [step, hi, clockEdge, hr, hb, ha]

theorem step_of_brokenHold_eq_none (hi : s.inputs = p :: rest) (hr : p.rst = false) (hb : s.brokenHold p = none) :
    step s = .next { s.afterEdge p with inputs := rest } := by
  rw [← State.afterEdge_with_inputs]
  cases ha : s.accepts p with
  | true =>
    rw [step_of_accepts hi hr hb ha, exec_eq_commit, State.pastEdge_regs,
      State.afterEdge_of_accepts { s with inputs := rest } p ha]
  | false =>
    rw [State.afterEdge_of_not_accepts { s with inputs := rest } p ha]
    simp [step, hi, clockEdge, hr, hb, ha]

/-- A step over an edge without reset that answers a state. -/
theorem eq_afterEdge_of_step {t : State} (hi : s.inputs = p :: rest) (hr : p.rst = false) (h : step s = .next t) :
    t = { s.afterEdge p with inputs := rest } := by
  cases hb : s.brokenHold p with
  | none =>
    rw [step_of_brokenHold_eq_none hi hr hb] at h
    cases h
    rfl
  | some w =>
    rw [step_of_brokenHold_eq_some hi hr hb] at h
    cases h

end Step

/-! ### What the edges of the obligations do -/

/-- Settles O44: the edge leaves the state before the command, in which only the delivery touched the queue. -/
theorem stepRunsTheDecodedCommand : Obligations.StepRunsTheDecodedCommand := by
  intro s p rest hi hr hvalid hready hheld
  have hkept : s.holdKept p := hheld.imp_right fun h => ⟨h, hvalid⟩
  have ha : s.accepts p = true := State.accepts_iff.2 ⟨hvalid, hready⟩
  refine ⟨_, step_of_accepts hi hr (State.brokenHold_of_holdKept hkept) ha, ?_⟩
  rw [State.pastEdge_with_inputs]
  refine ⟨s.pastEdge_regs p, rfl, s.pastEdge_edge p, ?_, ?_, fun hd => ?_, fun hd => ?_⟩
  · simp [ha]
  · simp [ha]
  · obtain ⟨b, hoq, -, hdelivered⟩ := State.deliver_of_delivers hd
    exact ⟨b, hoq, hdelivered⟩
  · exact State.deliver_of_not_delivers hd

@[simp] theorem State.makeRoom_regs (s : State) : s.makeRoom.regs = s.regs := by
  rw [State.makeRoom]
  split <;> rfl

@[simp] theorem State.makeRoom_out (s : State) : s.makeRoom.out = s.out := by
  rw [State.makeRoom]
  split
  · rfl
  · simp [State.out]

@[simp] theorem State.hasRoom_makeRoom (s : State) : hasRoom s.makeRoom.oq = true := by
  rw [State.makeRoom]
  split
  next h => exact h
  next => exact hasRoom_nil

theorem decode_of_decodeTableWord {nbits w : Nat} {i : Instr} (h : decodeTableWord nbits w = some i) :
    decode (BitVec.ofNat 10 w) = i := by
  by_cases hw : w < 1024
  · simpa [decodeTableWord, decodeNumber, hw] using h
  · simp [decodeTableWord, decodeNumber, hw] at h

/-- Settles O45: the placed word finds the stall over, room in the queue and no word held. -/
theorem placedWordIsRunNext : Obligations.PlacedWordIsRunNext := by
  intro s nbits w i hw
  obtain rfl := decode_of_decodeTableWord hw
  have hi : (s.withFetchWord nbits w).inputs = PinsIn.offering (BitVec.ofNat 10 w) :: s.inputs := rfl
  have ha : (s.withFetchWord nbits w).accepts (PinsIn.offering (BitVec.ofNat 10 w)) = true := by
    rw [State.accepts_iff, State.cmdReady_iff]
    exact ⟨rfl, rfl, s.hasRoom_makeRoom⟩
  have hstep := step_of_accepts hi rfl rfl ha
  refine ⟨_, ?_, ?_, ?_, hstep⟩
  · rw [State.pastEdge_regs]
    exact s.makeRoom_regs
  · rw [State.pastEdge_out]
    exact s.makeRoom_out
  · exact State.pastEdge_inputs _ _

/-- Settles O46, clause by clause from the state after the edge. -/
theorem edgeAcceptsAndDelivers : Obligations.EdgeAcceptsAndDelivers := by
  intro s t p rest hi hr ht
  obtain rfl := eq_afterEdge_of_step hi hr ht
  refine ⟨fun hv hc => ?accepted, fun hn => ?notAccepted, fun hv ho => ?delivered, fun hn => ?notDelivered,
    fun hv hc => ?held, fun hn => ?released⟩
  case accepted =>
    have he := s.edgeEffect_of_accepts p (State.accepts_iff.2 ⟨hv, hc⟩)
    exact ⟨congrArg Effect.regs he, (s.afterEdge_out p).trans (by rw [he]; rfl)⟩
  case notAccepted =>
    have he := s.edgeEffect_of_not_accepts p (State.not_accepts_iff.2 hn)
    exact ⟨congrArg Effect.regs he, (s.afterEdge_out p).trans (by rw [he, quiet_beats, List.append_nil])⟩
  case delivered =>
    obtain ⟨b, hoq, hword, hd⟩ := State.deliver_of_delivers (State.delivers_iff.2 ⟨hv, ho⟩)
    exact ⟨b, by rw [hoq, List.head?_cons], hword, hd⟩
  case notDelivered => exact (State.deliver_of_not_delivers (State.not_delivers_iff.2 hn)).2
  case held => exact (s.afterEdge_held p).trans (by simp [hv, State.not_accepts_iff.2 (.inr hc)])
  case released =>
    refine (s.afterEdge_held p).trans (if_neg fun h => ?_)
    simp only [Bool.and_eq_true, Bool.not_eq_true', State.not_accepts_iff] at h
    rcases hn with hn | hn <;> simp_all

/-- Settles O59: of the four kinds of step only the broken hold is refused. -/
theorem onlyABrokenHoldIsRefused : Obligations.OnlyABrokenHoldIsRefused := by
  refine ⟨fun s p rest w hi hr hheld hbroken => ?_, fun s hheld => ?_, fun s p rest hi h => ?_,
    fun s hi => step_of_inputs_nil hi, fun s r h => ?_⟩
  · exact step_of_brokenHold_eq_some hi hr (State.brokenHold_eq_some_iff.2 ⟨hheld, hbroken⟩)
  · rcases hi : s.inputs with _ | ⟨p, rest⟩
    · exact ⟨s, step_of_inputs_nil hi⟩
    cases hr : p.rst with
    | true => exact ⟨_, step_of_rst hi hr⟩
    | false => exact ⟨_, step_of_brokenHold_eq_none hi hr (State.brokenHold_of_holdKept (.inl hheld))⟩
  · cases hr : p.rst with
    | true => exact ⟨_, step_of_rst hi hr⟩
    | false =>
      have hkept : s.holdKept p := .inr (h.resolve_left (by rw [hr]; exact Bool.false_ne_true))
      exact ⟨_, step_of_brokenHold_eq_none hi hr (State.brokenHold_of_holdKept hkept)⟩
  · rcases hi : s.inputs with _ | ⟨p, rest⟩
    · rw [step_of_inputs_nil hi] at h
      cases h
    cases hr : p.rst with
    | true =>
      rw [step_of_rst hi hr] at h
      cases h
    | false =>
      cases hb : s.brokenHold p with
      | none =>
        rw [step_of_brokenHold_eq_none hi hr hb] at h
        cases h
      | some w =>
        rw [step_of_brokenHold_eq_some hi hr hb] at h
        cases h
        obtain ⟨hheld, hbroken⟩ := State.brokenHold_eq_some_iff.1 hb
        exact ⟨p, rest, w, rfl, hr, hheld, hbroken, rfl⟩

/-- Settles O55: an edge that takes no beat leaves the head of the queue and its wait, which is over, and only adds
behind it. -/
theorem offeredBeatIsHeld : Obligations.OfferedBeatIsHeld := by
  refine ⟨fun s hv => ?_, fun s t p rest hi hr ho hv ht => ?_⟩
  · obtain ⟨b, rest, hoq, hword⟩ := State.outWord_of_outValid hv
    exact ⟨b, by rw [hoq, List.head?_cons], hword⟩
  · obtain rfl := eq_afterEdge_of_step hi hr ht
    obtain ⟨b, rest', hoq, hword⟩ := State.outWord_of_outValid hv
    obtain ⟨hne, hdone⟩ := State.outValid_iff.1 hv
    have hnot : s.delivers p = false := State.not_delivers_iff.2 (.inr ho)
    have hoq' : (s.afterEdge p).oq = b :: (rest' ++ (s.edgeEffect p).beats) := by
      rw [State.afterEdge_oq, (State.deliver_of_not_delivers hnot).1, hoq, List.cons_append]
    have hv' : ({ s.afterEdge p with inputs := rest } : State).outValid = true := by
      refine State.outValid_iff.2 ⟨(by rw [hoq']; exact List.cons_ne_nil _ _), ?_⟩
      rw [State.afterEdge_outWait, State.deliver_outWait_of_not_delivers hnot hne, State.afterEdge_edge]
      exact Wait.done_of_le (Nat.le_succ s.edge) hdone
    have hhead : ({ s.afterEdge p with inputs := rest } : State).oq.head? = some b := by rw [hoq', List.head?_cons]
    exact ⟨hv', (State.outWord_of_head? hv' hhead).trans hword.symm, hhead.trans (by rw [hoq, List.head?_cons])⟩

/-! ### Reset (R34, R170) -/

theorem afterReset_idle (edge : Nat) (l : Lane) : (Regs.afterReset edge).idle l := by
  cases l
  · exact rfl
  · exact ⟨rfl, rfl⟩

/-- Settles O49: the registers after a reset edge are idle, which is all that later commands can see. -/
theorem resetEdgeGivesTheResetState : Obligations.ResetEdgeGivesTheResetState := by
  intro s p rest hi hr
  refine ⟨_, step_of_rst hi hr, rfl, rfl, rfl, rfl, rfl, rfl, rfl, ?_, fun is => ?_⟩
  · simp [State.acceptedWord, hr]
  · exact run_beats_of_idle (afterReset_idle s.edge .enc) (afterReset_idle s.edge .dec) is

/-- Settles O50: the reset state is a literal, and its lanes are idle. -/
theorem resetStateIsIdle : Obligations.ResetStateIsIdle :=
  ⟨rfl, rfl, rfl, rfl, rfl, reset_idle, rfl⟩

/-! ### The invariant of reachable states (R29, R30, R68) -/

/-- A state with nothing pending, nothing delivered and lane 1 idle has the invariant. -/
theorem inv_of_out_nil {s : State} (hidle : s.regs.idle .dec) (hout : s.out = []) : s.Inv := by
  obtain ⟨hdelivered, hoq⟩ := List.append_eq_nil_iff.1 hout
  refine ⟨reachable_of_idle hidle, ?_, ?_, ?_⟩ <;> simp [hdelivered, hoq]

/-- Settles O53: at reset lane 1 is idle and `OUT` is empty. -/
theorem resetStateHasTheInvariant : Obligations.ResetStateHasTheInvariant :=
  inv_of_out_nil (reset_idle .dec) rfl

/-- What is pending or delivered is what is in `OUT`. -/
theorem legal_out_iff {s : State} :
    (∀ b ∈ s.out, b.Legal) ↔ (∀ b ∈ s.oq, b.Legal) ∧ ∀ b ∈ s.delivered, b.Legal := by
  rw [State.out, List.forall_mem_append, and_comm]

theorem edgeEffect_reachable {s : State} (p : PinsIn) (h : s.regs.Reachable) : (s.edgeEffect p).regs.Reachable := by
  cases ha : s.accepts p with
  | true => exact s.edgeEffect_of_accepts p ha ▸ commandEffect_reachable (decode p.cmd) h
  | false => exact s.edgeEffect_of_not_accepts p ha ▸ h

theorem legal_of_mem_edgeEffect_beats {s : State} {p : PinsIn} {b : Beat} (hb : b ∈ (s.edgeEffect p).beats) :
    b.Legal := by
  cases ha : s.accepts p with
  | true => exact legal_of_mem_commandEffect_beats (s.edgeEffect_of_accepts p ha ▸ hb)
  | false => exact nomatch s.edgeEffect_of_not_accepts p ha ▸ hb

/-- The beats of the command accepted at an edge find room, which is judged before the delivery (R30). -/
theorem length_afterEdge_oq_le {s : State} (p : PinsIn) (h : s.oq.length ≤ Config.oqDepth) :
    (s.afterEdge p).oq.length ≤ Config.oqDepth := by
  have hdeliver := s.deliver_oq_length p
  rw [State.afterEdge_oq, List.length_append]
  cases ha : s.accepts p with
  | true =>
    have hbeats := length_commandEffect_beats_le (decode p.cmd) s.regs
    have hroom := (hasRoom_iff s.oq).1 (State.cmdReady_iff.1 (State.accepts_iff.1 ha).2).2
    rw [Config.maxBeats] at hbeats
    rw [s.edgeEffect_of_accepts p ha]
    omega
  | false =>
    rw [s.edgeEffect_of_not_accepts p ha, quiet_beats, List.length_nil]
    omega

theorem afterEdge_inv {s : State} (p : PinsIn) (h : s.Inv) : (s.afterEdge p).Inv := by
  have hout : ∀ b ∈ (s.afterEdge p).out, b.Legal := by
    rw [State.afterEdge_out, List.forall_mem_append]
    exact ⟨legal_out_iff.2 ⟨h.pending, h.taken⟩, fun b => legal_of_mem_edgeEffect_beats⟩
  obtain ⟨hpending, htaken⟩ := legal_out_iff.1 hout
  exact ⟨edgeEffect_reachable p h.regs, length_afterEdge_oq_le p h.depth, hpending, htaken⟩

/-- Settles O52: a reset edge starts afresh, and any other edge keeps the invariant. -/
theorem stepKeepsTheInvariant : Obligations.StepKeepsTheInvariant := by
  intro s t h ht
  rcases hi : s.inputs with _ | ⟨p, rest⟩
  · rw [step_of_inputs_nil hi] at ht
    cases ht
    exact h
  cases hr : p.rst with
  | true =>
    rw [step_of_rst hi hr] at ht
    cases ht
    exact inv_of_out_nil (afterReset_idle s.edge .dec) rfl
  | false =>
    obtain rfl := eq_afterEdge_of_step hi hr ht
    obtain ⟨hregs, hdepth, hpending, htaken⟩ := afterEdge_inv p h
    exact ⟨hregs, hdepth, hpending, htaken⟩

end Sys2Proof.Machine
end

section
/-! Proofs about runs of the clock (30_encoding.md, 44_message_semantics.md section 1, 70_reset_and_hazards.md
section 3): each edge is a step of `RUN` on the command it accepts, if it accepts one; and what a complete run is. -/

namespace Sys2Proof.Machine

/-! ### The ports refine the command stream (R51, R61, R69) -/

theorem runWords_append (r : Regs) (ws ws' : List CmdWord) :
    runWords r (ws ++ ws') = ⟨(runWords (runWords r ws).regs ws').regs,
      (runWords r ws).beats ++ (runWords (runWords r ws).regs ws').beats⟩ := by
  simp only [runWords_eq_run, List.map_append, run_append]

/-- What an edge without reset does to the registers and to `OUT` is `RUN` of the command it accepts, if any. -/
theorem edgeEffect_eq_runWords {s : State} {p : PinsIn} (hr : p.rst = false) :
    s.edgeEffect p = runWords s.regs (s.acceptedWord p).toList := by
  cases ha : s.accepts p with
  | true =>
    have hw : s.acceptedWord p = some p.cmd := by simp [State.acceptedWord, hr, ha]
    rw [s.edgeEffect_of_accepts p ha, hw, Option.toList_some, runWords_eq_run, List.map_singleton, run_singleton]
  | false =>
    have hw : s.acceptedWord p = none := by simp [State.acceptedWord, ha]
    rw [s.edgeEffect_of_not_accepts p ha, hw]
    rfl

/-- The first of some steps that end in a state. -/
theorem steps_succ_eq_next {n : Nat} {s t : State} (h : steps (n + 1) s = .next t) :
    ∃ u, step s = .next u ∧ steps n u = .next t := by
  rcases hs : step s with u | f | r <;> simp only [steps, hs] at h
  · exact ⟨u, rfl, h⟩
  · cases h
  · cases h

section Step
variable {s u : State} {n : Nat}

theorem steps_succ_of_step (h : step s = .next u) : steps (n + 1) s = steps n u := by
  rw [steps, h]

theorem acceptedIn_succ_of_inputs_nil (h : step s = .next u) (hi : s.inputs = []) :
    acceptedIn (n + 1) s = acceptedIn n u := by
  simp only [acceptedIn, h, hi]

theorem acceptedIn_succ_of_inputs_cons {p : PinsIn} {rest : List PinsIn} (h : step s = .next u)
    (hi : s.inputs = p :: rest) : acceptedIn (n + 1) s = (s.acceptedWord p).toList ++ acceptedIn n u := by
  simp only [acceptedIn, h, hi]

end Step

theorem noReset_succ {s : State} {n : Nat} {p : PinsIn} {rest : List PinsIn} (hi : s.inputs = p :: rest)
    (h : s.noReset (n + 1)) : p.rst = false ∧ ∀ q ∈ rest.take n, q.rst = false := by
  rw [State.noReset, hi, List.take_succ_cons, List.forall_mem_cons] at h
  exact h

/-- After any edges without reset, the registers and `OUT` are `RUN`'s, and deliveries have only been added. -/
theorem steps_refine_runWords (n : Nat) {s t : State} (hnr : s.noReset n) (h : steps n s = .next t) :
    t.regs = (runWords s.regs (acceptedIn n s)).regs ∧
      t.out = s.out ++ (runWords s.regs (acceptedIn n s)).beats ∧ s.delivered <+: t.delivered := by
  induction n generalizing s with
  | zero =>
    cases h
    exact ⟨rfl, (List.append_nil _).symm, List.prefix_rfl⟩
  | succ n ih =>
    obtain ⟨u, hu, ht⟩ := steps_succ_eq_next h
    rcases hi : s.inputs with _ | ⟨p, rest⟩
    · rw [acceptedIn_succ_of_inputs_nil hu hi]
      rw [step_of_inputs_nil hi] at hu
      cases hu
      exact ih (by simp [State.noReset, hi]) ht
    · obtain ⟨hr, hrest⟩ := noReset_succ hi hnr
      rw [acceptedIn_succ_of_inputs_cons hu hi, runWords_append, ← edgeEffect_eq_runWords hr]
      obtain rfl := eq_afterEdge_of_step hi hr hu
      obtain ⟨hregs, hout, hdelivered⟩ := ih (s := { s.afterEdge p with inputs := rest }) hrest ht
      refine ⟨hregs, ?_, (s.delivered_isPrefix_deliver p).trans hdelivered⟩
      rw [hout, ← List.append_assoc]
      exact congrArg (· ++ _) (s.afterEdge_out p)

/-- Settles O47: what is delivered is a part of `OUT` by its definition. -/
theorem portsRefineTheCommandStream : Obligations.PortsRefineTheCommandStream := by
  intro n s t hnr h
  obtain ⟨hregs, hout, hdelivered⟩ := steps_refine_runWords n hnr h
  exact ⟨hregs, hout, hdelivered, List.prefix_append t.delivered t.oq⟩

/-! ### Complete runs (R180) -/

/-- A command of the other lane leaves a lane idle that was. -/
theorem commandEffect_idle_of_ne {i : Instr} {l : Lane} (hi : i.lane ≠ l) {r : Regs} (h : r.idle l) :
    (commandEffect i r).regs.idle l := by
  have hlane := commandEffect_regs_of_ne hi r
  cases l with
  | enc => exact hlane.1.trans h
  | dec =>
    obtain ⟨hdph, -, -, hderr⟩ := hlane
    exact ⟨hdph.trans h.1, hderr.trans h.2⟩

theorem openInput_cons_of_ne {l : Lane} {i : Instr} (hi : i.lane ≠ l) (sofar : List Byte) (is : List Instr) :
    openInput l sofar (i :: is) = openInput l sofar is := by
  rw [openInput, if_neg hi]

theorem openInput_symbolCommand_cons (l : Lane) (x : Byte) (sofar : List Byte) (is : List Instr) :
    openInput l sofar (symbolCommand l x :: is) = openInput l (sofar ++ [x]) is := by
  simp [openInput]

theorem openInput_endCommand_cons (l : Lane) (rsv : Byte) (sofar : List Byte) (is : List Instr) :
    openInput l sofar (endCommand l rsv :: is) = openInput l [] is := by
  simp [openInput]

/-- A lane with no message open is idle: nothing of a message has come since it was idle last (R176, R180). -/
theorem run_idle_of_openInput_eq_nil {l : Lane} (is : List Instr) {sofar : List Byte} {r : Regs}
    (h : sofar = [] → r.idle l) (hopen : openInput l sofar is = []) : (run r is).regs.idle l := by
  induction is generalizing sofar r with
  | nil => exact h hopen
  | cons i is ih =>
    rcases lane_cases l i with hi | ⟨x, rfl⟩ | ⟨rsv, rfl⟩
    · rw [openInput_cons_of_ne hi] at hopen
      exact ih (fun hnil => commandEffect_idle_of_ne hi (h hnil)) hopen
    · rw [openInput_symbolCommand_cons] at hopen
      exact ih (fun hnil => absurd hnil (List.append_ne_nil_of_right_ne_nil sofar (List.cons_ne_nil x []))) hopen
    · rw [openInput_endCommand_cons] at hopen
      have hidle := commandEffect_idle_of_end (endCommand_isEnd l rsv) r
      rw [endCommand_lane] at hidle
      exact ih (fun _ => hidle) hopen

/-- Settles O48: the registers are `RUN`'s, and with nothing pending `OUT` is what was delivered. -/
theorem completeRunDeliversItsOutput : Obligations.CompleteRunDeliversItsOutput := by
  intro n s t henc hdec hout hnr h ⟨hopenEnc, hopenDec, hoq⟩
  obtain ⟨hregs, htout, -⟩ := steps_refine_runWords n hnr h
  rw [State.out, hoq, List.append_nil, hout, List.nil_append] at htout
  rw [runWords_eq_run] at hregs
  rw [hregs]
  exact ⟨run_idle_of_openInput_eq_nil _ (fun _ => henc) hopenEnc,
    run_idle_of_openInput_eq_nil _ (fun _ => hdec) hopenDec, htout⟩

end Sys2Proof.Machine
end

section
/-! Proofs about what happens in the end at the ports (70_reset_and_hazards.md sections 1, 3 and 4): every wait ends, so
`cmd_ready` rises, a queue that is served drains, and a pending beat is offered. -/

namespace Sys2Proof.Machine

/-! ### Edges with the pins held -/

section Driving
variable {s : State} {p : PinsIn} (hr : p.rst = false) (hk : s.holdKept p)
include hr hk

/-- The first of some edges at which the host drives the same pins. -/
theorem step_driving_succ (n : Nat) : step (s.driving p (n + 1)) = .next ((s.afterEdge p).driving p n) := by
  have hi : (s.driving p (n + 1)).inputs = p :: List.replicate n p := rfl
  have hb : (s.driving p (n + 1)).brokenHold p = none := State.brokenHold_of_holdKept hk
  rw [step_of_brokenHold_eq_none hi hr hb, State.driving, State.afterEdge_with_inputs]
  rfl

theorem steps_driving_succ (n : Nat) : steps (n + 1) (s.driving p (n + 1)) = steps n ((s.afterEdge p).driving p n) :=
  steps_succ_of_step (step_driving_succ hr hk n)

/-- If the first edge accepts nothing, what is accepted is what later edges accept. -/
theorem acceptedIn_driving_succ (ha : s.accepts p = false) (n : Nat) :
    acceptedIn (n + 1) (s.driving p (n + 1)) = acceptedIn n ((s.afterEdge p).driving p n) := by
  have hw : (s.driving p (n + 1)).acceptedWord p = none := by
    have ha' : (s.driving p (n + 1)).accepts p = false := ha
    simp [State.acceptedWord, ha']
  rw [acceptedIn_succ_of_inputs_cons (step_driving_succ hr hk n) rfl, hw, Option.toList_none, List.nil_append]

end Driving

/-! ### A full queue (R178) -/

theorem cmdReady_eq_false_of_full {s : State} (h : Config.oqDepth < s.oq.length + 3) : s.cmdReady = false := by
  have hroom : hasRoom s.oq = false := by
    rw [Bool.eq_false_iff, ne_eq, hasRoom_iff]
    omega
  rw [State.cmdReady, hroom, Bool.and_false]

/-- Settles O56: an edge at which nothing is taken and nothing accepted leaves the queue as full as it was. -/
theorem fullQueueStallsTheCommandPort : Obligations.FullQueueStallsTheCommandPort := by
  intro s p n hr ho hfull hk
  induction n generalizing s with
  | zero => exact ⟨_, rfl, rfl, rfl, rfl, cmdReady_eq_false_of_full hfull, rfl⟩
  | succ n ih =>
    have ha : s.accepts p = false := State.not_accepts_iff.2 (.inr (cmdReady_eq_false_of_full hfull))
    obtain ⟨hoq, hdelivered⟩ := State.deliver_of_not_delivers (State.not_delivers_iff.2 (.inr ho))
    have hoq' : (s.afterEdge p).oq = s.oq := by
      rw [State.afterEdge_of_not_accepts s p ha, State.pastEdge_oq, hoq]
    have hregs : (s.afterEdge p).regs = s.regs := by
      rw [State.afterEdge_of_not_accepts s p ha, State.pastEdge_regs]
    obtain ⟨t, ht, htregs, htoq, htdelivered, hready, haccepted⟩ :=
      ih (s.afterEdge p) (hoq'.symm ▸ hfull) (s.afterEdge_holdKept p)
    refine ⟨t, (steps_driving_succ hr hk n).trans ht, htregs.trans hregs, htoq.trans hoq',
      htdelivered.trans hdelivered, hready, (acceptedIn_driving_succ hr hk ha n).trans haccepted⟩

/-! ### A pending beat is offered (R182) -/

/-- With the beat's wait over in `k` edges, it is offered within them. -/
theorem pendingBeat_offered_of_done {p : PinsIn} (hr : p.rst = false) (k : Nat) {s : State} (hoq : s.oq ≠ [])
    (hk : s.holdKept p) (hdone : s.outWait.done Config.outLatency (s.edge + k) = true) :
    ∃ n t, steps n (s.driving p n) = .next t ∧ t.outValid = true ∧ s.oq <+: t.oq ∧ t.delivered = s.delivered := by
  induction k generalizing s with
  | zero => exact ⟨0, _, rfl, State.outValid_iff.2 ⟨hoq, hdone⟩, List.prefix_rfl, rfl⟩
  | succ k ih =>
    cases hv : s.outValid with
    | true => exact ⟨0, _, rfl, hv, List.prefix_rfl, rfl⟩
    | false =>
      have hnot : s.delivers p = false := State.not_delivers_iff.2 (.inl hv)
      obtain ⟨hoq', hdelivered⟩ := State.deliver_of_not_delivers hnot
      have hgrow : s.oq <+: (s.afterEdge p).oq := by
        rw [State.afterEdge_oq, hoq']
        exact List.prefix_append _ _
      have hdone' : (s.afterEdge p).outWait.done Config.outLatency ((s.afterEdge p).edge + k) = true := by
        rw [State.afterEdge_outWait, State.deliver_outWait_of_not_delivers hnot hoq, State.afterEdge_edge,
          Nat.add_assoc, Nat.add_comm 1 k]
        exact hdone
      obtain ⟨n, t, ht, hvalid, hprefix, htdelivered⟩ :=
        ih (fun hnil => hoq (List.prefix_nil.1 (hnil ▸ hgrow))) (s.afterEdge_holdKept p) hdone'
      exact ⟨n + 1, t, (steps_driving_succ hr hk n).trans ht, hvalid, hgrow.trans hprefix,
        htdelivered.trans hdelivered⟩

/-- Settles O58: the wait of the oldest beat ends. -/
theorem pendingBeatIsOffered : Obligations.PendingBeatIsOffered := by
  intro s p hoq hr hk
  obtain ⟨k, hends⟩ := s.outWait.ends Config.outLatency s.edge
  exact pendingBeat_offered_of_done hr k hoq hk (hends k le_rfl)

/-! ### An offered command is accepted (R182) -/

/-- With the pins `p` held the command port is ready after finitely many edges, and accepts nothing before. -/
def State.BecomesReady (p : PinsIn) (s : State) : Prop :=
  ∃ n t, steps n (s.driving p n) = .next t ∧ acceptedIn n (s.driving p n) = [] ∧ t.cmdReady = true

theorem becomesReady_of_cmdReady {p : PinsIn} {s : State} (h : s.cmdReady = true) : s.BecomesReady p :=
  ⟨0, _, rfl, rfl, h⟩

theorem becomesReady_of_afterEdge {p : PinsIn} {s : State} (hr : p.rst = false) (hk : s.holdKept p)
    (hready : s.cmdReady = false) (h : (s.afterEdge p).BecomesReady p) : s.BecomesReady p := by
  obtain ⟨n, t, ht, haccepted, htready⟩ := h
  have ha : s.accepts p = false := State.not_accepts_iff.2 (.inr hready)
  exact ⟨n + 1, t, (steps_driving_succ hr hk n).trans ht, (acceptedIn_driving_succ hr hk ha n).trans haccepted,
    htready⟩

/-- Of an edge at which the command port is not ready: the stall goes on, and the queue does not grow. -/
theorem afterEdge_of_not_cmdReady {s : State} (p : PinsIn) (h : s.cmdReady = false) :
    (s.afterEdge p).cmdWait = s.cmdWait ∧ (s.afterEdge p).oq = (s.deliver p).oq := by
  have ha : s.accepts p = false := State.not_accepts_iff.2 (.inr h)
  rw [State.afterEdge_of_not_accepts s p ha]
  refine ⟨?_, State.pastEdge_oq s p⟩
  rw [State.pastEdge_cmdWait, ha]
  rfl

/-- With nothing pending nothing is delivered. -/
theorem deliver_oq_of_nil {s : State} (p : PinsIn) (h : s.oq = []) : (s.deliver p).oq = [] := by
  have hle := s.deliver_oq_length p
  rw [h, List.length_nil] at hle
  exact List.length_eq_zero_iff.1 (Nat.le_zero.1 hle)

/-- With an empty queue, readiness waits for the stall alone, which is over in `k` edges. -/
theorem becomesReady_of_oq_nil {p : PinsIn} (hr : p.rst = false) (k : Nat) {s : State} (hoq : s.oq = [])
    (hk : s.holdKept p) (hdone : s.cmdWait.done Config.cmdStall (s.edge + k) = true) : s.BecomesReady p := by
  induction k generalizing s with
  | zero => exact becomesReady_of_cmdReady (State.cmdReady_iff.2 ⟨hdone, hoq ▸ hasRoom_nil⟩)
  | succ k ih =>
    cases hready : s.cmdReady with
    | true => exact becomesReady_of_cmdReady hready
    | false =>
      obtain ⟨hwait, hoq'⟩ := afterEdge_of_not_cmdReady p hready
      refine becomesReady_of_afterEdge hr hk hready
        (ih (hoq'.trans (deliver_oq_of_nil p hoq)) (s.afterEdge_holdKept p) ?_)
      rw [hwait, State.afterEdge_edge, Nat.add_assoc, Nat.add_comm 1 k]
      exact hdone

/-- An edge that delivers a beat and accepts nothing shortens the queue. -/
theorem length_afterEdge_oq_lt {s : State} {p : PinsIn} (hready : s.cmdReady = false) (hd : s.delivers p = true) :
    (s.afterEdge p).oq.length < s.oq.length := by
  obtain ⟨b, hoq, -, -⟩ := State.deliver_of_delivers hd
  rw [(afterEdge_of_not_cmdReady p hready).2, hoq, List.length_cons]
  exact Nat.lt_succ_self _

/-- With the wait of the oldest beat over in `k` edges, and a host that takes it, readiness comes at the latest with a
shorter queue. -/
theorem becomesReady_of_shorter {p : PinsIn} (hr : p.rst = false) (ho : p.outReady = true) (k : Nat) {s : State}
    (hshorter : ∀ u : State, u.oq.length < s.oq.length → u.holdKept p → u.BecomesReady p) (hoq : s.oq ≠ [])
    (hk : s.holdKept p) (hdone : s.outWait.done Config.outLatency (s.edge + k) = true) : s.BecomesReady p := by
  have served {s : State} (hshorter : ∀ u : State, u.oq.length < s.oq.length → u.holdKept p → u.BecomesReady p)
      (hk : s.holdKept p) (hready : s.cmdReady = false) (hd : s.delivers p = true) : s.BecomesReady p :=
    becomesReady_of_afterEdge hr hk hready
      (hshorter _ (length_afterEdge_oq_lt hready hd) (s.afterEdge_holdKept p))
  induction k generalizing s with
  | zero =>
    cases hready : s.cmdReady with
    | true => exact becomesReady_of_cmdReady hready
    | false =>
      exact served hshorter hk hready (State.delivers_iff.2 ⟨State.outValid_iff.2 ⟨hoq, hdone⟩, ho⟩)
  | succ k ih =>
    cases hready : s.cmdReady with
    | true => exact becomesReady_of_cmdReady hready
    | false =>
      cases hd : s.delivers p with
      | true => exact served hshorter hk hready hd
      | false =>
        have hoq' : (s.afterEdge p).oq = s.oq :=
          (afterEdge_of_not_cmdReady p hready).2.trans (State.deliver_of_not_delivers hd).1
        refine becomesReady_of_afterEdge hr hk hready
          (ih (hoq'.symm ▸ hshorter) (hoq'.symm ▸ hoq) (s.afterEdge_holdKept p) ?_)
        rw [State.afterEdge_outWait, State.deliver_outWait_of_not_delivers hd hoq, State.afterEdge_edge,
          Nat.add_assoc, Nat.add_comm 1 k]
        exact hdone

/-- A host that takes every beat, and holds what it offers, finds the command port ready in the end: by induction on
the length of the queue. -/
theorem becomesReady_of_outReady {p : PinsIn} (hr : p.rst = false) (ho : p.outReady = true) (s : State)
    (hk : s.holdKept p) : s.BecomesReady p := by
  by_cases hoq : s.oq = []
  · obtain ⟨k, hends⟩ := s.cmdWait.ends Config.cmdStall s.edge
    exact becomesReady_of_oq_nil hr k hoq hk (hends k le_rfl)
  · obtain ⟨k, hends⟩ := s.outWait.ends Config.outLatency s.edge
    exact becomesReady_of_shorter hr ho k (fun u _ hu => becomesReady_of_outReady hr ho u hu) hoq hk (hends k le_rfl)
termination_by s.oq.length

/-- Settles O57: the queue drains until there is room, and the stall ends. -/
theorem offeredCommandIsAccepted : Obligations.OfferedCommandIsAccepted := by
  intro s w hheld
  have hk : s.holdKept ⟨false, true, w, true⟩ := hheld.imp_right fun h => ⟨h, rfl⟩
  obtain ⟨n, t, ht, haccepted, hready⟩ := becomesReady_of_outReady rfl rfl s hk
  exact ⟨n, t, ht, haccepted, by simp [State.acceptedWord, State.accepts, hready]⟩

/-! ### The stall after reset (R171) -/

theorem offersHeld_cons {p : PinsIn} {ps : List PinsIn} (h : offersHeld (p :: ps)) :
    (∀ q ∈ ps.head?, p.cmdValid = true → q.cmdValid = true ∧ q.cmd = p.cmd) ∧ offersHeld ps := by
  rcases ps with _ | ⟨q, ps⟩
  · exact ⟨nofun, trivial⟩
  · obtain ⟨hq, hps⟩ := h
    refine ⟨fun q' hq' => ?_, hps⟩
    obtain rfl : q = q' := Option.some.inj hq'
    exact hq

/-- Under a stall that lasts up to the last of the given edges, with an empty queue, whatever the host drives in
keeping its duty, nothing is accepted and `cmd_ready` then rises. -/
theorem stall_ends {since : Nat} (ps : List PinsIn) {s : State} (hi : s.inputs = ps) (hoq : s.oq = [])
    (hwait : s.cmdWait = .since since) (hlen : s.edge + ps.length = since + Config.cmdStall since + 1)
    (hr : ∀ q ∈ ps, q.rst = false) (hoffers : offersHeld ps) (hk : ∀ q ∈ ps.head?, s.holdKept q) :
    ∃ u, steps ps.length s = .next u ∧ u.cmdReady = true ∧ acceptedIn ps.length s = [] := by
  induction ps generalizing s with
  | nil =>
    refine ⟨s, rfl, State.cmdReady_iff.2 ⟨?_, hoq ▸ hasRoom_nil⟩, rfl⟩
    rw [hwait, Wait.done, decide_eq_true_eq]
    rw [List.length_nil] at hlen
    omega
  | cons p ps ih =>
    rw [List.length_cons] at hlen ⊢
    rw [List.forall_mem_cons] at hr
    obtain ⟨hrp, hrps⟩ := hr
    have hready : s.cmdReady = false := by
      have hdone : s.cmdWait.done Config.cmdStall s.edge = false := by
        rw [hwait, Wait.done, decide_eq_false_iff_not]
        omega
      rw [State.cmdReady, hdone, Bool.false_and]
    have ha : s.accepts p = false := State.not_accepts_iff.2 (.inr hready)
    obtain ⟨hwait', hoq'⟩ := afterEdge_of_not_cmdReady p hready
    have hstep := step_of_brokenHold_eq_none hi hrp (State.brokenHold_of_holdKept (hk p rfl))
    have haccepted : s.acceptedWord p = none := by simp [State.acceptedWord, ha]
    obtain ⟨hnext, hoffers'⟩ := offersHeld_cons hoffers
    obtain ⟨u, hu, huready, huaccepted⟩ := ih (s := { s.afterEdge p with inputs := ps }) rfl
      (hoq'.trans (deliver_oq_of_nil p hoq)) (hwait'.trans hwait) (by rw [State.afterEdge_edge]; omega) hrps hoffers'
      fun q hq => s.afterEdge_holdKept_of_offers (hnext q hq)
    refine ⟨u, (steps_succ_of_step hstep).trans hu, huready, ?_⟩
    rw [acceptedIn_succ_of_inputs_cons hstep hi, haccepted, huaccepted]
    rfl

/-- Settles O51: after a reset edge the queue is empty and the stall counts from that edge. -/
theorem handshakeOutputsAroundReset : Obligations.HandshakeOutputsAroundReset := by
  refine ⟨fun s => ⟨rfl, rfl⟩, fun s t p rest hi hr ht => ?_⟩
  rw [step_of_rst hi hr] at ht
  cases ht
  refine ⟨fun rst => ?_, Config.cmdStall s.edge, fun ps hlen hrst hoffers => ?_⟩
  · exact Bool.and_false _
  · have hlast : s.edge + 1 + ps.length = s.edge + Config.cmdStall s.edge + 1 := by omega
    obtain ⟨u, hu, hready, haccepted⟩ := stall_ends (s := { s.resetEdge with inputs := ps }) ps rfl rfl rfl hlast
      hrst hoffers fun q _ => .inl rfl
    rw [hlen] at hu haccepted
    exact ⟨u, hu, hready, haccepted⟩

end Sys2Proof.Machine
end

section
/-! Proofs about the assembler (30_encoding.md section 5): the tokens of a line of plain words, the value of a number
printed in decimal, and the lines the printer writes. -/

namespace Sys2Proof.Machine.Asm

/-! ### Tokens of plain words -/

/-- A character that belongs to a word: it separates nothing and opens nothing (R71). -/
def isPlain (c : Char) : Bool := c != ';' && !isBlank c && c != '"' && c != '\''

theorem isPlain_iff {c : Char} :
    isPlain c = true ↔ c ≠ ';' ∧ isBlank c = false ∧ c ≠ '"' ∧ c ≠ '\'' := by
  simp only [isPlain, Bool.and_eq_true, bne_iff_ne, Bool.not_eq_true', and_assoc]

theorem tokens_between_plain_cons {c : Char} (hc : isPlain c = true) (cs : List Char) :
    tokens .between (c :: cs) = tokens (.inWord [c]) cs := by
  obtain ⟨hcomment, hblank, htext, hquote⟩ := isPlain_iff.1 hc
  simp [tokens, hcomment, hblank, htext, hquote]

theorem tokens_inWord_plain_cons {c : Char} (hc : isPlain c = true) (w cs : List Char) :
    tokens (.inWord w) (c :: cs) = tokens (.inWord (w ++ [c])) cs := by
  obtain ⟨hcomment, hblank, htext, hquote⟩ := isPlain_iff.1 hc
  simp [tokens, hcomment, hblank, htext, hquote]

/-- A word goes on through plain characters. -/
theorem tokens_inWord_append {cs : List Char} (hcs : ∀ c ∈ cs, isPlain c = true) (w rest : List Char) :
    tokens (.inWord w) (cs ++ rest) = tokens (.inWord (w ++ cs)) rest := by
  induction cs generalizing w with
  | nil => rw [List.nil_append, List.append_nil]
  | cons c cs ih =>
    rw [List.forall_mem_cons] at hcs
    rw [List.cons_append, tokens_inWord_plain_cons hcs.1, ih hcs.2, List.append_assoc, List.singleton_append]

/-- A run of plain characters begins a word. -/
theorem tokens_between_append {cs : List Char} (hne : cs ≠ []) (hcs : ∀ c ∈ cs, isPlain c = true)
    (rest : List Char) : tokens .between (cs ++ rest) = tokens (.inWord cs) rest := by
  obtain ⟨c, cs, rfl⟩ := List.exists_cons_of_ne_nil hne
  rw [List.forall_mem_cons] at hcs
  rw [List.cons_append, tokens_between_plain_cons hcs.1, tokens_inWord_append hcs.2]
  rfl

/-- A run of plain characters to the end of the line is one word. -/
theorem tokens_word {cs : List Char} (hne : cs ≠ []) (hcs : ∀ c ∈ cs, isPlain c = true) :
    tokens .between cs = some [.word cs] := by
  have h := tokens_between_append hne hcs []
  rwa [List.append_nil] at h

/-- Two runs of plain characters with a space between them are two words. -/
theorem tokens_two_words {m ds : List Char} (hm : m ≠ []) (hmplain : ∀ c ∈ m, isPlain c = true) (hds : ds ≠ [])
    (hdsplain : ∀ c ∈ ds, isPlain c = true) : tokens .between (m ++ ' ' :: ds) = some [.word m, .word ds] := by
  rw [tokens_between_append hm hmplain]
  simp [tokens, isBlank, tokens_word hds hdsplain]

/-! ### Numbers in decimal -/

theorem ne_of_isDigit {c d : Char} (hc : c.isDigit = true) (hd : d.isDigit = false) : c ≠ d := by
  rintro rfl
  rw [hc] at hd
  cases hd

theorem isPlain_of_isDigit {c : Char} (h : c.isDigit = true) : isPlain c = true := by
  have hblank : isBlank c = false := by
    simp only [isBlank, Bool.or_eq_false_iff, beq_eq_false_iff_ne]
    exact ⟨⟨ne_of_isDigit h rfl, ne_of_isDigit h rfl⟩, ne_of_isDigit h rfl⟩
  exact isPlain_iff.2 ⟨ne_of_isDigit h rfl, hblank, ne_of_isDigit h rfl, ne_of_isDigit h rfl⟩

theorem digitOf_ten {c : Char} (h : c.isDigit = true) : digitOf 10 c = some (c.toNat - '0'.toNat) := by
  obtain ⟨h0, h9⟩ := Char.isDigit_iff_toNat.1 h
  have hlt : c.toNat - '0'.toNat < 10 := by
    have : '9'.toNat = '0'.toNat + 9 := rfl
    omega
  simp only [digitOf, h0, h9, and_self, if_true, hlt]

theorem digitsOf_ten {cs : List Char} (hcs : ∀ c ∈ cs, c.isDigit = true) (sofar : Nat) :
    digitsOf 10 sofar cs = some (Nat.ofDigitChars 10 cs sofar) := by
  induction cs generalizing sofar with
  | nil => rfl
  | cons c cs ih =>
    rw [List.forall_mem_cons] at hcs
    rw [digitsOf, digitOf_ten hcs.1]
    simp only
    rw [ih hcs.2, Nat.ofDigitChars_cons, Nat.mul_comm]

/-- A run of decimal digits is read as one number in decimal: its second character is no `x`. -/
theorem byteOf_of_isDigit {cs : List Char} (hne : cs ≠ []) (hcs : ∀ c ∈ cs, c.isDigit = true) :
    byteOf cs = if Nat.ofDigitChars 10 cs 0 < 256 then some (BitVec.ofNat 8 (Nat.ofDigitChars 10 cs 0)) else none := by
  unfold byteOf
  split
  · exact absurd rfl hne
  next c cs' =>
    exact absurd (hcs 'x' (by simp)) (by decide)
  next => rw [digitsOf_ten hcs]

theorem isDigit_of_mem_toDigits_ten {n : Nat} {c : Char} (h : c ∈ Nat.toDigits 10 n) : c.isDigit = true :=
  Nat.isDigit_of_mem_toDigits (by decide) le_rfl h

/-- A byte printed in decimal is read back. -/
theorem byteOf_toDigits (d : Byte) : byteOf (Nat.toDigits 10 d.toNat) = some d := by
  rw [byteOf_of_isDigit Nat.toDigits_ne_nil fun c => isDigit_of_mem_toDigits_ten, Nat.ofDigitChars_ten_toDigits,
    if_pos d.isLt, BitVec.ofNat_toNat, BitVec.setWidth_eq]

/-! ### Lines -/

/-- A line of a mnemonic and a number. -/
theorem assembleLine_number {m : List Char} (hm : m ≠ []) (hmplain : ∀ c ∈ m, isPlain c = true) (d : Byte) :
    assembleLine (m ++ ' ' :: Nat.toDigits 10 d.toNat) = commandsOf m [.word (Nat.toDigits 10 d.toNat)] := by
  rw [assembleLine, tokens_two_words hm hmplain Nat.toDigits_ne_nil fun c hc =>
    isPlain_of_isDigit (isDigit_of_mem_toDigits_ten hc)]

theorem commandsOf_encb (d : Byte) :
    commandsOf "ENCB".toList [.word (Nat.toDigits 10 d.toNat)] = some [.encb d] := by
  simp [commandsOf, byteOperand, byteOf_toDigits]

theorem commandsOf_decc (c : Byte) :
    commandsOf "DECC".toList [.word (Nat.toDigits 10 c.toNat)] = some [.decc c] := by
  simp [commandsOf, charOperand, byteOf_toDigits]

theorem assembleLine_render (i : Instr) : assembleLine (render i) = some [i.canonical] := by
  cases i with
  | encb d =>
    exact (assembleLine_number (m := "ENCB".toList) (by decide) (List.all_eq_true.1 rfl) d).trans (commandsOf_encb d)
  | ence rsv => rfl
  | decc c =>
    exact (assembleLine_number (m := "DECC".toList) (by decide) (List.all_eq_true.1 rfl) c).trans (commandsOf_decc c)
  | dece rsv => rfl

/-- A well-formed command is canonical (R64). -/
theorem canonical_of_wellFormed {i : Instr} (h : i.wellFormed = true) : i.canonical = i := by
  cases i with
  | encb d => rfl
  | ence rsv => rw [Instr.canonical, beq_iff_eq.1 h]
  | decc c => rfl
  | dece rsv => rw [Instr.canonical, beq_iff_eq.1 h]

/-! ### Pseudo-commands (R72) -/

/-- Operands that are words are numbers, not a quoted string. -/
theorem symbolOperands_words (ws : List (List Char)) :
    symbolOperands (ws.map Token.word) = (ws.map Token.word).mapM byteOperand := by
  unfold symbolOperands
  split
  next t h =>
    obtain ⟨w, -, hw⟩ := List.mem_map.1 (h ▸ List.mem_singleton_self (Token.text t))
    cases hw
  next => rfl

theorem symbolOperands_toDigits (xs : List Byte) :
    symbolOperands (xs.map fun x => .word (Nat.toDigits 10 x.toNat)) = some xs := by
  have hwords : (xs.map fun x => Token.word (Nat.toDigits 10 x.toNat)) =
      (xs.map fun x => Nat.toDigits 10 x.toNat).map Token.word := by
    rw [List.map_map]
    rfl
  have hread : byteOperand ∘ (Token.word ∘ fun x : Byte => Nat.toDigits 10 x.toNat) = pure :=
    funext byteOf_toDigits
  rw [hwords, symbolOperands_words, List.map_map, List.mapM_map, hread, List.mapM_pure, List.map_id']
  rfl

/-- Settles O60, line by line and for the two pseudo-commands. -/
theorem assemblerReadsWhatIsPrinted : Obligations.AssemblerReadsWhatIsPrinted := by
  refine ⟨assembleLine_render, fun i h => ?_, fun xs => ⟨?_, ?_⟩⟩
  · rw [assembleLine_render, canonical_of_wellFormed h]
  · exact congrArg (Option.map encMessage) (symbolOperands_toDigits xs)
  · exact congrArg (Option.map decMessage) (symbolOperands_toDigits xs)

end Sys2Proof.Machine.Asm
end
